-- ==== Sys2Proof/Word.lean ====
section
/-! DEFINITION. The 16-bit word of the Machine and its plainest arithmetic (R2, R6).

`uval(v)` of the spec is `v.toNat`, `sval(v)` is `v.toInt`; both are views of one bit pattern. -/

namespace Sys2Proof

/-- A register, a memory word, an instruction and an address are all 16-bit patterns (R2). -/
abbrev Word := BitVec 16

/-- `bv16(n)`: the 16-bit pattern of the integer `n` modulo 65536 (R6, section 7.2). -/
def bv16 (n : Int) : Word := BitVec.ofInt 16 n

end Sys2Proof
end

