-- ==== Sys2Proof/Syntax.lean ====
section
/-! DEFINITION. The instructions, one constructor per row of spec/opcode_table.json.

Fields are what R46's `decode` hands on: register numbers as names, signed immediates and offsets as the integers
`sext_k` gives, the trap vector as its 8 bits. Bits that no field names (R45) are not part of an instruction. -/

namespace Sys2Proof

/-- The eight general registers `R0` to `R7` (R10). -/
inductive Reg where
  | r0 | r1 | r2 | r3 | r4 | r5 | r6 | r7
  deriving DecidableEq, Repr

/-- The decoded instruction (R46), in the order of spec/opcode_table.json. -/
inductive Instr where
  /-- `BR[n][z][p] #off` (R73). -/
  | br (n z p : Bool) (off9 : Int)
  /-- `ADD Rd,Rs1,Rs2` (R59). -/
  | addReg (dst src1 src2 : Reg)
  /-- `ADD Rd,Rs1,#imm` (R60). -/
  | addImm (dst src1 : Reg) (imm : Int)
  /-- `LD Rd,#off` (R65). -/
  | ld (reg : Reg) (off9 : Int)
  /-- `ST Rs,#off` (R66). -/
  | st (reg : Reg) (off9 : Int)
  /-- `AND Rd,Rs1,Rs2` (R61). -/
  | andReg (dst src1 src2 : Reg)
  /-- `AND Rd,Rs1,#imm` (R62). -/
  | andImm (dst src1 : Reg) (imm : Int)
  /-- `LDR Rd,Rb,#off` (R69). -/
  | ldr (reg base : Reg) (off6 : Int)
  /-- `STR Rs,Rb,#off` (R70). -/
  | str (reg base : Reg) (off6 : Int)
  /-- `NOT Rd,Rs` (R63). -/
  | notReg (dst src1 : Reg)
  /-- `LDI Rd,#off` (R67). -/
  | ldi (reg : Reg) (off9 : Int)
  /-- `STI Rs,#off` (R68). -/
  | sti (reg : Reg) (off9 : Int)
  /-- `JMP Rb` (R74). -/
  | jmp (base : Reg)
  /-- `LEA Rd,#off` (R71). -/
  | lea (reg : Reg) (off9 : Int)
  /-- `TRAP xNN` (R75). -/
  | trap (vector : BitVec 8)
  /-- The decode failure of opcode 0100 (R44). -/
  | undefined0100
  /-- The decode failure of opcode 1000 (R44). -/
  | undefined1000
  /-- The decode failure of opcode 1101 (R44). -/
  | undefined1101
  deriving DecidableEq, Repr

end Sys2Proof
end

