-- ==== Sys2Proof/WellFormed.lean ====
section
/-! DEFINITION. When an instruction has an encoding: its immediate or offset fits the signed field of its layout.

"An out-of-range immediate or offset is an assembler error and has no encoding" (R48). Register numbers and the trap
vector fit by their types: "no register field can be invalid" (R10). -/

namespace Sys2Proof

/-- `imm5`: -16 to 15 (R36). -/
def fitsImm5 (imm : Int) : Bool := decide (-16 ≤ imm ∧ imm ≤ 15)

/-- `offset6`: -32 to 31 (R36). -/
def fitsOffset6 (off6 : Int) : Bool := decide (-32 ≤ off6 ∧ off6 ≤ 31)

/-- `pcoffset9`: -256 to 255 (R36). -/
def fitsPcoffset9 (off9 : Int) : Bool := decide (-256 ≤ off9 ∧ off9 ≤ 255)

/-- The instruction has an encoding: its one signed operand, if any, is in the range of its field. -/
def Instr.wf : Instr → Bool
  | .br _ _ _ off9 => fitsPcoffset9 off9
  | .addReg _ _ _ => true
  | .addImm _ _ imm => fitsImm5 imm
  | .ld _ off9 => fitsPcoffset9 off9
  | .st _ off9 => fitsPcoffset9 off9
  | .andReg _ _ _ => true
  | .andImm _ _ imm => fitsImm5 imm
  | .ldr _ _ off6 => fitsOffset6 off6
  | .str _ _ off6 => fitsOffset6 off6
  | .notReg _ _ => true
  | .ldi _ off9 => fitsPcoffset9 off9
  | .sti _ off9 => fitsPcoffset9 off9
  | .jmp _ => true
  | .lea _ off9 => fitsPcoffset9 off9
  | .trap _ => true
  | .undefined0100 => true
  | .undefined1000 => true
  | .undefined1101 => true

end Sys2Proof
end

