-- ==== Sys2Proof/Decode.lean ====
section
/-! DEFINITION. From a 16-bit word to an instruction and back (spec/30_encoding.md).

Decoding is total (R46): the three opcode values without a handler decode to the constructors
`undefined0100`, `undefined1000`, `undefined1101`, which R44 names decode failures. -/

namespace Sys2Proof

/-! ## The extractor and the sign-extender -/

/-- `field(w, p, k)`: the `k` bits of `w` from the source's 1-based position `p` (R35). -/
def field (w : Word) (p k : Nat) : BitVec k := w.extractLsb' (p - 1) k

/-- A one-bit field as a truth value. -/
def flagField (w : Word) (p : Nat) : Bool := field w p 1 == 1#1

/-- `sext_k(f)`: the integer a `k`-bit two's-complement field stands for (R36). -/
def sext {k : Nat} (f : BitVec k) : Int :=
  if f.toNat < 2 ^ (k - 1) then f.toNat else f.toNat - 2 ^ k

/-- A 3-bit register field selects a register "by its unsigned value 0 to 7" (R10). -/
def Reg.ofBits (b : BitVec 3) : Reg :=
  match b.toFin with
  | 0 => .r0
  | 1 => .r1
  | 2 => .r2
  | 3 => .r3
  | 4 => .r4
  | 5 => .r5
  | 6 => .r6
  | 7 => .r7

/-- The register field that selects a register (R10). -/
def Reg.bits : Reg → BitVec 3
  | .r0 => 0
  | .r1 => 1
  | .r2 => 2
  | .r3 => 3
  | .r4 => 4
  | .r5 => 5
  | .r6 => 6
  | .r7 => 7

/-- The register a 3-bit field at position `p` names. -/
def regField (w : Word) (p : Nat) : Reg := Reg.ofBits (field w p 3)

/-- `imm5` (5 bits @1), sign-extended (R37). -/
def imm5 (w : Word) : Int := sext (field w 1 5)

/-- `offset6` (6 bits @1), sign-extended (R39). -/
def offset6 (w : Word) : Int := sext (field w 1 6)

/-- `pcoffset9` (9 bits @1), sign-extended (R38, R40). -/
def pcoffset9 (w : Word) : Int := sext (field w 1 9)

/-! ## The opcode map -/

/-- What an opcode value dispatches to: one of the 13 handlers (R42), or one of the three failures (R44). -/
inductive Opcode where
  | br | add | ld | st | undefined0100 | and | ldr | str
  | undefined1000 | not | ldi | sti | jmp | undefined1101 | lea | trap
  deriving DecidableEq, Repr

/-- The replaceable parameter `OPCODE_MAP` (R43): the table read in both directions. -/
structure OpcodeMap where
  ofBits : BitVec 4 → Opcode
  bits   : Opcode → BitVec 4

/-- The two directions are one table. -/
def OpcodeMap.Consistent (m : OpcodeMap) : Prop :=
  (∀ o, m.ofBits (m.bits o) = o) ∧ (∀ b, m.bits (m.ofBits b) = b)

/-- The standard assignment, read by value, `w[15]` first (R43). PRESUMED: decision D1 of the spec, which takes the
numbers "from general knowledge, not in source" (log entry 1). -/
def opcodeOfBits (b : BitVec 4) : Opcode :=
  match b[3], b[2], b[1], b[0] with
  | false, false, false, false => .br
  | false, false, false, true  => .add
  | false, false, true,  false => .ld
  | false, false, true,  true  => .st
  | false, true,  false, false => .undefined0100
  | false, true,  false, true  => .and
  | false, true,  true,  false => .ldr
  | false, true,  true,  true  => .str
  | true,  false, false, false => .undefined1000
  | true,  false, false, true  => .not
  | true,  false, true,  false => .ldi
  | true,  false, true,  true  => .sti
  | true,  true,  false, false => .jmp
  | true,  true,  false, true  => .undefined1101
  | true,  true,  true,  false => .lea
  | true,  true,  true,  true  => .trap

/-- The standard assignment, read by name (R43). PRESUMED as above (log entry 1). -/
def opcodeBits : Opcode → BitVec 4
  | .br            => 0b0000
  | .add           => 0b0001
  | .ld            => 0b0010
  | .st            => 0b0011
  | .undefined0100 => 0b0100
  | .and           => 0b0101
  | .ldr           => 0b0110
  | .str           => 0b0111
  | .undefined1000 => 0b1000
  | .not           => 0b1001
  | .ldi           => 0b1010
  | .sti           => 0b1011
  | .jmp           => 0b1100
  | .undefined1101 => 0b1101
  | .lea           => 0b1110
  | .trap          => 0b1111

/-- The default of `OPCODE_MAP` (decision D1, log entry 1). -/
def standardOpcodeMap : OpcodeMap := { ofBits := opcodeOfBits, bits := opcodeBits }

/-! ## Decoding -/

/-- R46's `decode`, over any opcode map. Bits no field names are not read (R45). -/
def decodeWith (m : OpcodeMap) (w : Word) : Instr :=
  match m.ofBits (field w 13 4) with
  | .br => .br (flagField w 12) (flagField w 11) (flagField w 10) (pcoffset9 w)
  | .add =>
    if flagField w 6 then .addImm (regField w 10) (regField w 7) (imm5 w)
    else .addReg (regField w 10) (regField w 7) (regField w 1)
  | .ld => .ld (regField w 10) (pcoffset9 w)
  | .st => .st (regField w 10) (pcoffset9 w)
  | .undefined0100 => .undefined0100
  | .and =>
    if flagField w 6 then .andImm (regField w 10) (regField w 7) (imm5 w)
    else .andReg (regField w 10) (regField w 7) (regField w 1)
  | .ldr => .ldr (regField w 10) (regField w 7) (offset6 w)
  | .str => .str (regField w 10) (regField w 7) (offset6 w)
  | .undefined1000 => .undefined1000
  | .not => .notReg (regField w 10) (regField w 7)
  | .ldi => .ldi (regField w 10) (pcoffset9 w)
  | .sti => .sti (regField w 10) (pcoffset9 w)
  | .jmp => .jmp (regField w 7)
  | .undefined1101 => .undefined1101
  | .lea => .lea (regField w 10) (pcoffset9 w)
  | .trap => .trap (field w 1 8)

/-- The Machine's decoder (R46, under R43's map). -/
def decode (w : Word) : Instr := decodeWith standardOpcodeMap w

/-! ## Encoding -/

/-- A field put at the source's 1-based position `p` of a word: the reverse of `field`. -/
def place {k : Nat} (p : Nat) (f : BitVec k) : Word := f.setWidth 16 <<< (p - 1)

/-- A register field put at position `p`. -/
def placeReg (p : Nat) (r : Reg) : Word := place p r.bits

/-- A condition bit put at position `p`. -/
def placeFlag (p : Nat) (b : Bool) : Word := place p (BitVec.ofBool b)

/-- The `k`-bit two's-complement field of an immediate or offset, at position 1 (R48). -/
def placeSigned (k : Nat) (x : Int) : Word := place 1 (BitVec.ofInt k x)

/-- The dispatch target an instruction belongs to (R42). -/
def Instr.opcode : Instr → Opcode
  | .br _ _ _ _ => .br
  | .addReg _ _ _ => .add
  | .addImm _ _ _ => .add
  | .ld _ _ => .ld
  | .st _ _ => .st
  | .andReg _ _ _ => .and
  | .andImm _ _ _ => .and
  | .ldr _ _ _ => .ldr
  | .str _ _ _ => .str
  | .notReg _ _ => .not
  | .ldi _ _ => .ldi
  | .sti _ _ => .sti
  | .jmp _ => .jmp
  | .lea _ _ => .lea
  | .trap _ => .trap
  | .undefined0100 => .undefined0100
  | .undefined1000 => .undefined1000
  | .undefined1101 => .undefined1101

/-- Bits 11 to 0 of an instruction's word, by the layouts R37 to R41. Ignored bits take the canonical value of
R45's table; the 12 bits under an undefined opcode, for which the spec names no canonical value, are zero
(DESIGN CHOICE, log entry 8). -/
def Instr.operandBits : Instr → Word
  | .br n z p off9 => placeFlag 12 n ||| placeFlag 11 z ||| placeFlag 10 p ||| placeSigned 9 off9
  | .addReg dst src1 src2 => placeReg 10 dst ||| placeReg 7 src1 ||| placeReg 1 src2
  | .addImm dst src1 imm => placeReg 10 dst ||| placeReg 7 src1 ||| place 6 1#1 ||| placeSigned 5 imm
  | .ld reg off9 => placeReg 10 reg ||| placeSigned 9 off9
  | .st reg off9 => placeReg 10 reg ||| placeSigned 9 off9
  | .andReg dst src1 src2 => placeReg 10 dst ||| placeReg 7 src1 ||| placeReg 1 src2
  | .andImm dst src1 imm => placeReg 10 dst ||| placeReg 7 src1 ||| place 6 1#1 ||| placeSigned 5 imm
  | .ldr reg base off6 => placeReg 10 reg ||| placeReg 7 base ||| placeSigned 6 off6
  | .str reg base off6 => placeReg 10 reg ||| placeReg 7 base ||| placeSigned 6 off6
  | .notReg dst src1 => placeReg 10 dst ||| placeReg 7 src1 ||| place 1 0b111111#6
  | .ldi reg off9 => placeReg 10 reg ||| placeSigned 9 off9
  | .sti reg off9 => placeReg 10 reg ||| placeSigned 9 off9
  | .jmp base => placeReg 7 base
  | .lea reg off9 => placeReg 10 reg ||| placeSigned 9 off9
  | .trap vector => place 1 vector
  | .undefined0100 => 0
  | .undefined1000 => 0
  | .undefined1101 => 0

/-- The one word of an instruction (R34), over any opcode map. -/
def encodeWith (m : OpcodeMap) (i : Instr) : Word := place 13 (m.bits i.opcode) ||| i.operandBits

/-- The word of an instruction under R43's map. -/
def encode (i : Instr) : Word := encodeWith standardOpcodeMap i

/-- The bits of a word that decoding it reads: all but R45's ignored bits. -/
def Instr.namedBits : Instr → Word
  | .br _ _ _ _ => 0xFFFF
  | .addReg _ _ _ => 0xFFE7
  | .addImm _ _ _ => 0xFFFF
  | .ld _ _ => 0xFFFF
  | .st _ _ => 0xFFFF
  | .andReg _ _ _ => 0xFFE7
  | .andImm _ _ _ => 0xFFFF
  | .ldr _ _ _ => 0xFFFF
  | .str _ _ _ => 0xFFFF
  | .notReg _ _ => 0xFFC0
  | .ldi _ _ => 0xFFFF
  | .sti _ _ => 0xFFFF
  | .jmp _ => 0xF1C0
  | .lea _ _ => 0xFFFF
  | .trap _ => 0xF0FF
  | .undefined0100 => 0xF000
  | .undefined1000 => 0xF000
  | .undefined1101 => 0xF000

/-! ## The opcode table's view -/

/-- The word made of the low `nbits` bits of `w`, zero above them: an instruction as spec/opcode_table.json numbers it. -/
def tableWord (nbits w : Nat) : Word := BitVec.ofNat 16 (w % 2 ^ nbits)

/-- The instruction the decoder reads from a table row's word. Every instruction is one 16-bit word (R34), so more
than 16 bits are no instruction. -/
def decodeTableWord (nbits w : Nat) : Option Instr :=
  if nbits ≤ 16 then some (decode (tableWord nbits w)) else none

end Sys2Proof
end

