-- ==== Sys2Proof/Config.lean ====
section
/-! DEFINITION. What the spec fixes once for every Machine (R2).

The spec leaves two parameters open. `OPCODE_MAP` is `standardOpcodeMap` of Sys2Proof/Decode.lean (log entry 1);
`TRAP_SERVICE` is the argument of `StepUnder` and `RunUnder`, and in `step` acts through the field
`services` of State (log entry 2). No value of this machine is a free value:
spec/93_implementation_defined.md, section 1, says that no behaviour of CORE has the treatment "any value". -/

namespace Sys2Proof.Config

/-- `MEM_WORDS`, "fixed at 65536 for the lifetime of the Machine" (R2, R9). -/
def memWords : Nat := 65536

/-- The highest address, 65535: what R26 checks an effective address against. -/
def lastAddress : Int := 65535

end Sys2Proof.Config
end

