-- ==== Sys2Proof/Machine/State.lean ====
section
/-! DEFINITION. The state of the Machine (spec/10_state.md), plain data.

The spec's own state is `mem`, `regs`, `pc` and `flags` "and nothing else" (R8). Two further fields are the MODEL's:
`services` is the input from the external trap service (R86, log entry 2) and `outcome` is the value the last
`step()` returned to the driver (R51, log entry 3). No instruction but TRAP reads `services`; none reads `outcome`. -/

namespace Sys2Proof.Machine

/-- One word of memory at an address. The addressable unit is the 16-bit word (R21, log entry 4). -/
abbrev Cell := Nat × Word

/-- The memory array (R9) as the list of its cells that differ from an unlisted one; `Memory.wf` is its one form. -/
abbrev Memory := List Cell

/-- The register file, `R0` to `R7` (R10). -/
structure Regs where
  r0 : Word
  r1 : Word
  r2 : Word
  r3 : Word
  r4 : Word
  r5 : Word
  r6 : Word
  r7 : Word
  deriving DecidableEq, Repr

/-- The condition flags `N`, `Z`, `P` (R14). -/
structure Flags where
  n : Bool
  z : Bool
  p : Bool
  deriving DecidableEq, Repr

/-- What a step returns to the driver (R51, R82). -/
inductive StepOutcome where
  | normal
  | halted
  | decodeError
  | addressSpaceViolation
  | trapUnregistered
  deriving DecidableEq, Repr

/-- The four flag states that occur (R14): a trap service may leave any of them and no other (R86). -/
inductive FlagState where
  | none
  | negative
  | zero
  | positive
  deriving DecidableEq, Repr

/-- What a trap service changed (R86): registers and memory words written, in order, and the flags if it set them.
It has no way to write `pc`. -/
structure ServiceEffect where
  regs  : List (Reg × Word)
  mem   : List (Word × Word)
  flags : Option FlagState
  deriving DecidableEq, Repr

/-- What `invoke_trap` answers (R76, R86). `never` is R86's empty set of answers: a service that does not return. -/
inductive TrapAnswer where
  | unregistered
  | halt (effect : ServiceEffect)
  | resume (effect : ServiceEffect) (address : Word)
  | never
  deriving DecidableEq, Repr

/-- The state of the Machine (R8), with the model's two fields `services` and `outcome`. -/
structure State where
  /-- `Mem`, 65536 words (R9). -/
  mem : Memory
  /-- `R[0..7]` (R10). -/
  regs : Regs
  /-- The program counter (R12). -/
  pc : Word
  /-- `N`, `Z`, `P` (R14). -/
  flags : Flags
  /-- The MODEL's field: what the external service will answer, each answer with the vector it answers, the first
  for a vector being its next (R86, log entry 2). -/
  services : List (BitVec 8 × TrapAnswer)
  /-- The MODEL's field: what the last `step()` returned (R51, log entry 3). -/
  outcome : StepOutcome
  deriving DecidableEq, Repr

/-- Why a step ends without a next state. R56 and R92 tell a model to treat an error outcome as a fault that is never a
final state; each carries the state R56 says the Machine is left in, from which the driver may go on (log entry 5). -/
inductive Fault where
  /-- R78: the fetched word's opcode has no handler. Raised by the three undefined opcodes, after the pc increment.
  Safe: the spec's own outcome, with the state it leaves. -/
  | decodeError (left : State)
  /-- R79: an effective address, or the incremented pc, is outside 0 to 65535. Raised by the fetch at 65535, by LD, ST,
  LDI, STI, LDR, STR, LEA, and by BR when taken. Safe: the spec's own outcome, with the state it leaves. -/
  | addressSpaceViolation (left : State)
  /-- R80: no service for the vector. Raised by TRAP, after `R[7]` is written. Safe: the spec's own outcome, with the
  state it leaves. -/
  | trapUnregistered (left : State)
  /-- R86: the service never answers, so the step has no successor and the run is stuck. Raised by TRAP. Safe: nothing
  follows. Carries the state in which the service was called. -/
  | trapNeverAnswers (atCall : State)
  deriving DecidableEq, Repr

/-- Why an instruction has no meaning in the model. No arm of `exec` answers so. -/
inductive Refusal where
  /-- Raised only by an arm of `exec` that has no meaning yet; there is none. Safe. -/
  | notModelled (mnemonic : String)
  deriving DecidableEq, Repr

/-- What a step, and each instruction's meaning, answers. -/
abbrev Result := Host.Outcome State Fault Refusal

/-- The state after creation and after `reset()` (R19, R93, R94): all zero. No service answer is pending and no step
has returned yet (DESIGN CHOICE for the model's own two fields, log entries 2 and 3). -/
def State.reset : State where
  mem := []
  regs := { r0 := 0, r1 := 0, r2 := 0, r3 := 0, r4 := 0, r5 := 0, r6 := 0, r7 := 0 }
  pc := 0
  flags := { n := false, z := false, p := false }
  services := []
  outcome := .normal

end Sys2Proof.Machine
end

