-- ==== Sys2Proof/Machine/Ops.lean ====
section
/-! DEFINITION. The named operations over memory, registers and the program counter, how a step ends, and trap entry. -/

namespace Sys2Proof.Machine

/-! ## Memory (spec/20_memory.md) -/

/-- What an address that memory does not list reads as: the reset contents (R19). -/
def unlistedWord : Word := 0

/-- The word at an address (R23). -/
def Memory.readAt : Memory → Nat → Word
  | [], _ => unlistedWord
  | (k, v) :: rest, a => if a = k then v else readAt rest a

/-- Put a cell before the first one with a higher address. -/
def Memory.insertCell (c : Cell) : Memory → Memory
  | [] => [c]
  | d :: rest => if c.1 < d.1 then c :: d :: rest else d :: insertCell c rest

/-- Take out every cell of an address. -/
def Memory.removeAt (m : Memory) (a : Nat) : Memory := m.filter (fun c => c.1 != a)

/-- Set the word at an address and change nothing else (R24). Writing what an unlisted address reads as removes the cell. -/
def Memory.writeAt (m : Memory) (a : Nat) (v : Word) : Memory :=
  if v = unlistedWord then m.removeAt a else (m.removeAt a).insertCell (a, v)

/-- `MemRead(a)` (R23): a 16-bit address is always in range. -/
def Memory.read (m : Memory) (a : Word) : Word := m.readAt a.toNat

/-- `MemWrite(a, v)` (R24). -/
def Memory.write (m : Memory) (a v : Word) : Memory := m.writeAt a.toNat v

/-- The one form of memory: addresses strictly rising and below 65536 (R9), no cell that reads as an unlisted one. -/
abbrev Memory.wf (m : Memory) : Prop :=
  m.Pairwise (fun c d => c.1 < d.1) ∧ ∀ c ∈ m, c.1 < Config.memWords ∧ c.2 ≠ unlistedWord

/-! ## Registers (R10) -/

/-- `R[i]`. -/
def Regs.get (g : Regs) : Reg → Word
  | .r0 => g.r0
  | .r1 => g.r1
  | .r2 => g.r2
  | .r3 => g.r3
  | .r4 => g.r4
  | .r5 => g.r5
  | .r6 => g.r6
  | .r7 => g.r7

/-- `R[i] <- v`. -/
def Regs.set (g : Regs) (r : Reg) (v : Word) : Regs :=
  match r with
  | .r0 => { g with r0 := v }
  | .r1 => { g with r1 := v }
  | .r2 => { g with r2 := v }
  | .r3 => { g with r3 := v }
  | .r4 => { g with r4 := v }
  | .r5 => { g with r5 := v }
  | .r6 => { g with r6 := v }
  | .r7 => { g with r7 := v }

/-! ## The same over State -/

def State.reg (s : State) (r : Reg) : Word := s.regs.get r

def State.setReg (s : State) (r : Reg) (v : Word) : State := { s with regs := s.regs.set r v }

def State.memRead (s : State) (a : Word) : Word := s.mem.read a

def State.memWrite (s : State) (a v : Word) : State := { s with mem := s.mem.write a v }

def State.setPc (s : State) (a : Word) : State := { s with pc := a }

def State.setFlags (s : State) (f : Flags) : State := { s with flags := f }

def State.setServices (s : State) (p : List (BitVec 8 × TrapAnswer)) : State := { s with services := p }

def State.setOutcome (s : State) (o : StepOutcome) : State := { s with outcome := o }

/-! ## The address calculator -/

/-- `EA(b, o)`: the exact sum, never wrapped; `none` is R26's `raise AddressSpaceViolation`. -/
def ea (b : Word) (o : Int) : Option Word :=
  let t := (b.toNat : Int) + o
  if t < 0 ∨ t > Config.lastAddress then none else some (bv16 t)

/-! ## How a step ends -/

/-- `return Normal` (R51). -/
def returnNormal (s : State) : Result := .next (s.setOutcome .normal)

/-- `return Halted` (R81): the Machine keeps no halted latch, so this is an ordinary state. -/
def returnHalted (s : State) : Result := .next (s.setOutcome .halted)

/-- The three error outcomes (R77). -/
inductive ErrorOutcome where
  | decodeError
  | addressSpaceViolation
  | trapUnregistered
  deriving DecidableEq, Repr

/-- `raise X` (R77): the step ends here with the state as it stands; it vectors nowhere and saves nothing. -/
def raise (e : ErrorOutcome) (s : State) : Result :=
  match e with
  | .decodeError => .fault (.decodeError (s.setOutcome .decodeError))
  | .addressSpaceViolation => .fault (.addressSpaceViolation (s.setOutcome .addressSpaceViolation))
  | .trapUnregistered => .fault (.trapUnregistered (s.setOutcome .trapUnregistered))

/-- Go on with an address, or end the step where `EA` refused to give one (R26). -/
def withAddress (a? : Option Word) (s : State) (k : Word → Result) : Result :=
  match a? with
  | none => raise .addressSpaceViolation s
  | some a => k a

/-! ## Fetch (spec/40_instruction_cycle.md) -/

/-- `MemRead(pc)` (R52). -/
def fetch (s : State) : Word := s.memRead s.pc

/-- `pc <- pc + 1` (R53); `none` where the incremented pc would be 65536, since no address wraps (R29). -/
def advancePc (s : State) : Option State := (ea s.pc 1).map s.setPc

/-! ## Trap entry and return (spec/60_exceptions.md) -/

/-- Trap entry (R85): the return address goes to `R[7]`; nothing else is saved and no mode, mask or stack changes.
`pc` is the incremented pc. -/
def trapEntry (s : State) : State := s.setReg .r7 s.pc

/-- Trap return (R87): `pc` takes the address the service answered; nothing is restored. -/
def trapReturn (s : State) (a : Word) : State := s.setPc a

end Sys2Proof.Machine
end

