-- ==== Sys2Proof/Machine/Operands.lean ====
section
/-! DEFINITION. Operand forms and addressing modes (R28, R58). In each, `pc` is the incremented pc (R12). -/

namespace Sys2Proof.Machine

/-- `operand2`, register form: `R[src2]` (R58). -/
def registerOperand (src2 : Reg) (s : State) : Word := s.reg src2

/-- `operand2`, immediate form: `bv16(sext_5(w[4:0]))` (R58). -/
def immediateOperand (imm : Int) : Word := bv16 imm

/-- PC-relative, for LD, ST, LEA, a taken BR, and the pointer cell of LDI and STI: `EA(pc, off9)` (R28). -/
def pcRelative (off9 : Int) (s : State) : Option Word := ea s.pc off9

/-- Indirect, for LDI and STI: the word at the PC-relative address, read as an unsigned address (R27, R28). -/
def indirect (off9 : Int) (s : State) : Option Word := (pcRelative off9 s).map s.memRead

/-- Base+offset, for LDR and STR: `EA(uval(R[base]), off6)` (R28). -/
def baseOffset (base : Reg) (off6 : Int) (s : State) : Option Word := ea (s.reg base) off6

/-- Register, for JMP: `uval(R[base])`, nothing added (R28). -/
def registerTarget (base : Reg) (s : State) : Word := s.reg base

end Sys2Proof.Machine
end

