-- ==== Sys2Proof/Machine/Flags.lean ====
section
/-! DEFINITION. The condition flags: how they are set (R15), how BR tests them (R73), which states are legal (R14). -/

namespace Sys2Proof.Machine

/-- The flags of a 16-bit pattern read as signed (R15). -/
def flagsOf (v : Word) : Flags where
  n := decide (v.toInt < 0)
  z := decide (v.toInt = 0)
  p := decide (v.toInt > 0)

/-- `setcc(v)` (R15). -/
def State.setcc (s : State) (v : Word) : State := s.setFlags (flagsOf v)

/-- BR's condition: a requested bit meets its flag (R73). -/
def branchTaken (n z p : Bool) (f : Flags) : Bool := (n && f.n) || (z && f.z) || (p && f.p)

/-- At most one flag is set (R14). -/
def Flags.legal (f : Flags) : Bool := !(f.n && f.z) && !(f.n && f.p) && !(f.z && f.p)

/-- The flags of each of R14's four flag states. -/
def FlagState.flags : FlagState → Flags
  | .none => { n := false, z := false, p := false }
  | .negative => { n := true, z := false, p := false }
  | .zero => { n := false, z := true, p := false }
  | .positive => { n := false, z := false, p := true }

end Sys2Proof.Machine
end

