-- ==== Sys2Proof/Machine/Service.lean ====
section
/-! DEFINITION. The trap hook `invoke_trap` and the named parameter `TRAP_SERVICE` (R76, R86).

The service is outside the Machine. In a state its answers stand as plain data, the field `services`; `TrapService` is
R86's parameter itself, a relation, for claims about one instance or about all of them: the argument of `StepUnder` and
`RunUnder` in Sys2Proof/Machine/Serviced.lean. -/

namespace Sys2Proof.Machine

/-- Register writes, in order. -/
def State.setRegs (s : State) (ws : List (Reg × Word)) : State := ws.foldl (fun t w => t.setReg w.1 w.2) s

/-- Memory writes, in order. -/
def State.memWrites (s : State) (ws : List (Word × Word)) : State := ws.foldl (fun t w => t.memWrite w.1 w.2) s

/-- The flags a service leaves: its own, or those it found. -/
def State.setFlagState (s : State) : Option FlagState → State
  | .none => s
  | .some f => s.setFlags f.flags

/-- The state `s'` a service leaves: any register, memory word and legal flag state may differ, `pc` may not (R86). -/
def State.afterService (s : State) (e : ServiceEffect) : State :=
  ((s.setRegs e.regs).memWrites e.mem).setFlagState e.flags

/-- The next pending answer for a vector, and what is pending after it. A vector with no answer pending has no service
registered (DESIGN CHOICE, log entry 2). -/
def takeAnswer (vector : BitVec 8) : List (BitVec 8 × TrapAnswer) → TrapAnswer × List (BitVec 8 × TrapAnswer)
  | [] => (.unregistered, [])
  | (v, answer) :: rest =>
    if v = vector then (answer, rest)
    else ((takeAnswer vector rest).1, (v, answer) :: (takeAnswer vector rest).2)

/-- `invoke_trap(vector)` (R76): the answer, and the state with that answer no longer pending. -/
def invokeTrap (vector : BitVec 8) (s : State) : TrapAnswer × State :=
  ((takeAnswer vector s.services).1, s.setServices (takeAnswer vector s.services).2)

/-- What the core does with the answer, and nothing else (R75, R76). -/
def applyAnswer (answer : TrapAnswer) (s : State) : Result :=
  match answer with
  | .unregistered => raise .trapUnregistered s
  | .halt effect => returnHalted (s.afterService effect)
  | .resume effect address => returnNormal (trapReturn (s.afterService effect) address)
  | .never => .fault (.trapNeverAnswers s)

/-! ## The parameter -/

/-- R86's `Answer`, with the state `s'` the service leaves. -/
inductive ServiceAnswer where
  | unregistered
  | halt (after : State)
  | resume (after : State) (address : Word)

/-- R86's `TRAP_SERVICE`: which answers a service may give to a vector in a state; none where it never returns. -/
abbrev TrapService := BitVec 8 → State → ServiceAnswer → Prop

/-- `s'` may differ from `s` in memory, registers and flags, not in `pc`, and keeps the flags legal (R86). The other
clauses are the model's own (log entries 2 to 4): its two fields are no business of a service, and memory keeps its one
form. -/
def Permitted (s s' : State) : Prop :=
  s'.pc = s.pc ∧ (s.flags.legal = true → s'.flags.legal = true) ∧ (s.mem.wf → s'.mem.wf) ∧
    s'.services = s.services ∧ s'.outcome = s.outcome

/-- Every state the service leaves is one R86 permits. -/
def TrapService.Lawful (svc : TrapService) : Prop :=
  ∀ vector s, (∀ s', svc vector s (.halt s') → Permitted s s') ∧
    ∀ s' a, svc vector s (.resume s' a) → Permitted s s'

/-- The results a TRAP may have under a service, in a state where `pc` is the incremented pc (R75). -/
def TrapUnder (svc : TrapService) (vector : BitVec 8) (s : State) (r : Result) : Prop :=
  (svc vector (trapEntry s) .unregistered ∧ r = raise .trapUnregistered (trapEntry s)) ∨
  (∃ s', svc vector (trapEntry s) (.halt s') ∧ r = returnHalted s') ∨
  (∃ s' a, svc vector (trapEntry s) (.resume s' a) ∧ r = returnNormal (trapReturn s' a))

/-- The most permissive service: every answer R86 permits, to every vector in every state. -/
def anyService : TrapService := fun _ s answer =>
  match answer with
  | .unregistered => True
  | .halt s' => Permitted s s'
  | .resume s' _ => Permitted s s'

/-- The instance `SVC_MIN` of R86: vector 0x25 halts and changes nothing; no other vector has a service. -/
def svcMin : TrapService := fun vector s answer =>
  (vector = 0x25#8 ∧ answer = .halt s) ∨ (vector ≠ 0x25#8 ∧ answer = .unregistered)

/-- The instance `SVC_RET` of R86: as `SVC_MIN`, and vector 0x21 changes nothing and returns to its caller. -/
def svcRet : TrapService := fun vector s answer =>
  (vector = 0x25#8 ∧ answer = .halt s) ∨ (vector = 0x21#8 ∧ answer = .resume s (s.reg .r7)) ∨
  (vector ≠ 0x25#8 ∧ vector ≠ 0x21#8 ∧ answer = .unregistered)

end Sys2Proof.Machine
end

