-- ==== Sys2Proof/Machine/ControlFlow.lean ====
section
/-! DEFINITION. The control-flow instructions BR, JMP and TRAP (spec/43_control_flow.md), and the decode failures of the
three undefined opcodes (R44, R78). -/

namespace Sys2Proof.Machine

/-- BR (R73): the target is computed, and so checked, only when the branch is taken. -/
def execBr (n z p : Bool) (off9 : Int) (s : State) : Result :=
  if branchTaken n z p s.flags then withAddress (pcRelative off9 s) s (fun t => returnNormal (s.setPc t))
  else returnNormal s

/-- JMP (R74). -/
def execJmp (base : Reg) (s : State) : Result := returnNormal (s.setPc (registerTarget base s))

/-- TRAP (R75): `R[7]` is written before the service is asked. -/
def execTrap (vector : BitVec 8) (s : State) : Result :=
  applyAnswer (invokeTrap vector (trapEntry s)).1 (invokeTrap vector (trapEntry s)).2

/-- Opcode 0100 ends the step with `DecodeError` (R44). -/
def execUndefined0100 (s : State) : Result := raise .decodeError s

/-- Opcode 1000 ends the step with `DecodeError` (R44). -/
def execUndefined1000 (s : State) : Result := raise .decodeError s

/-- Opcode 1101 ends the step with `DecodeError` (R44). -/
def execUndefined1101 (s : State) : Result := raise .decodeError s

end Sys2Proof.Machine
end

