-- ==== Sys2Proof/Machine/Operate.lean ====
section
/-! DEFINITION. The operate instructions ADD, AND, NOT (spec/41_operate.md). -/

namespace Sys2Proof.Machine

/-- Write a result to its register, set the flags from it, end normally: how ADD, AND, NOT, the loads and LEA end
(R16, R58, R64). -/
def writeResult (dst : Reg) (v : Word) (s : State) : Result := returnNormal ((s.setReg dst v).setcc v)

/-- The ALU's addition, modulo 65536 (R58, R59). -/
def aluAdd (a b : Word) : Word := bv16 ((a.toNat : Int) + (b.toNat : Int))

/-- The ALU's conjunction (R58, R61). -/
def aluAnd (a b : Word) : Word := a &&& b

/-- The ALU's complement (R58, R63). -/
def aluNot (a : Word) : Word := ~~~a

/-- ADD, register form (R59). -/
def execAddReg (dst src1 src2 : Reg) (s : State) : Result :=
  writeResult dst (aluAdd (s.reg src1) (registerOperand src2 s)) s

/-- ADD, immediate form (R60). -/
def execAddImm (dst src1 : Reg) (imm : Int) (s : State) : Result :=
  writeResult dst (aluAdd (s.reg src1) (immediateOperand imm)) s

/-- AND, register form (R61). -/
def execAndReg (dst src1 src2 : Reg) (s : State) : Result :=
  writeResult dst (aluAnd (s.reg src1) (registerOperand src2 s)) s

/-- AND, immediate form (R62). -/
def execAndImm (dst src1 : Reg) (imm : Int) (s : State) : Result :=
  writeResult dst (aluAnd (s.reg src1) (immediateOperand imm)) s

/-- NOT (R63). -/
def execNotReg (dst src1 : Reg) (s : State) : Result := writeResult dst (aluNot (s.reg src1)) s

end Sys2Proof.Machine
end

