-- ==== Sys2Proof/Machine/MemoryAccess.lean ====
section
/-! DEFINITION. The memory access instructions LD, ST, LDI, STI, LDR, STR and LEA (spec/42_memory_access.md). -/

namespace Sys2Proof.Machine

/-- Load the word at an address into a register and set the flags from it (R64). -/
def loadFrom (a? : Option Word) (reg : Reg) (s : State) : Result :=
  withAddress a? s (fun a => writeResult reg (s.memRead a) s)

/-- Store a register at an address; the flags are not touched (R64). -/
def storeTo (a? : Option Word) (reg : Reg) (s : State) : Result :=
  withAddress a? s (fun a => returnNormal (s.memWrite a (s.reg reg)))

/-- LD (R65). -/
def execLd (reg : Reg) (off9 : Int) (s : State) : Result := loadFrom (pcRelative off9 s) reg s

/-- ST (R66). -/
def execSt (reg : Reg) (off9 : Int) (s : State) : Result := storeTo (pcRelative off9 s) reg s

/-- LDI (R67). -/
def execLdi (reg : Reg) (off9 : Int) (s : State) : Result := loadFrom (indirect off9 s) reg s

/-- STI (R68). -/
def execSti (reg : Reg) (off9 : Int) (s : State) : Result := storeTo (indirect off9 s) reg s

/-- LDR (R69). -/
def execLdr (reg base : Reg) (off6 : Int) (s : State) : Result := loadFrom (baseOffset base off6 s) reg s

/-- STR (R70). -/
def execStr (reg base : Reg) (off6 : Int) (s : State) : Result := storeTo (baseOffset base off6 s) reg s

/-- LEA (R71): the address itself, with no memory access; it sets the flags (spec/90_conflicts.md C12). -/
def execLea (reg : Reg) (off9 : Int) (s : State) : Result :=
  withAddress (pcRelative off9 s) s (fun a => writeResult reg a s)

end Sys2Proof.Machine
end

