-- ==== Sys2Proof/Machine/Dispatch.lean ====
section
/-! DEFINITION. The dispatch of a decoded instruction to its meaning (R42, R54). -/

namespace Sys2Proof.Machine

def exec (i : Instr) (s : State) : Host.Outcome State Fault Refusal :=
  match i with
  | .br n z p off9 => Sys2Proof.Machine.execBr n z p off9 s
  | .addReg dst src1 src2 => Sys2Proof.Machine.execAddReg dst src1 src2 s
  | .addImm dst src1 imm => Sys2Proof.Machine.execAddImm dst src1 imm s
  | .ld reg off9 => Sys2Proof.Machine.execLd reg off9 s
  | .st reg off9 => Sys2Proof.Machine.execSt reg off9 s
  | .andReg dst src1 src2 => Sys2Proof.Machine.execAndReg dst src1 src2 s
  | .andImm dst src1 imm => Sys2Proof.Machine.execAndImm dst src1 imm s
  | .ldr reg base off6 => Sys2Proof.Machine.execLdr reg base off6 s
  | .str reg base off6 => Sys2Proof.Machine.execStr reg base off6 s
  | .notReg dst src1 => Sys2Proof.Machine.execNotReg dst src1 s
  | .ldi reg off9 => Sys2Proof.Machine.execLdi reg off9 s
  | .sti reg off9 => Sys2Proof.Machine.execSti reg off9 s
  | .jmp base => Sys2Proof.Machine.execJmp base s
  | .lea reg off9 => Sys2Proof.Machine.execLea reg off9 s
  | .trap vector => Sys2Proof.Machine.execTrap vector s
  | .undefined0100 => Sys2Proof.Machine.execUndefined0100 s
  | .undefined1000 => Sys2Proof.Machine.execUndefined1000 s
  | .undefined1101 => Sys2Proof.Machine.execUndefined1101 s

end Sys2Proof.Machine
end

