-- ==== Sys2Proof/Machine/Step.lean ====
section
/-! DEFINITION. The instruction cycle `step()` (R50). -/

namespace Sys2Proof.Machine

/-- `step()` (R50): fetch at `pc`, increment `pc`, decode, execute. Where the incremented pc is not an address, the step
ends before decode and changes nothing (R53, R84). -/
def step (s : State) : Host.Outcome State Fault Refusal :=
  match advancePc s with
  | none => raise .addressSpaceViolation s
  | some s' => exec (decode (fetch s)) s'

/-- `s` with a table row's word stored where the next step fetches: at `pc`. -/
def State.withFetchWord (s : State) (nbits w : Nat) : State := s.memWrite s.pc (tableWord nbits w)

end Sys2Proof.Machine
end

