-- ==== Sys2Proof/Machine/Driver.lean ====
section
/-! DEFINITION. The driver's operations on the Machine (R4, spec/70_reset_and_hazards.md), each between two steps
(R100), and `run()` (R57). -/

namespace Sys2Proof.Machine

/-- `reset()` (R93): every bit of the Machine's state is zeroed; the trap service is outside the Machine and stays. -/
def driverReset (s : State) : State := State.reset.setServices s.services

/-- Write a block of words from an address on, the first word first (R95). -/
def writeBlock (s : State) (address : Nat) : List Word → State
  | [] => s
  | w :: rest => writeBlock { s with mem := s.mem.writeAt address w } (address + 1) rest

/-- What `load` returns (R95). -/
inductive LoadResult where
  | ok
  | failed
  deriving DecidableEq, Repr

/-- `load(address, words)` (R95): the length check precedes the first write, so a failing load writes nothing (R96). -/
def load (address : Nat) (words : List Word) (s : State) : LoadResult × State :=
  if address + words.length > Config.memWords then (.failed, s) else (.ok, writeBlock s address words)

/-- `set_pc(a)` (R98). -/
def driverSetPc (a : Word) (s : State) : State := s.setPc a

/-- `set_reg(i, v)` (R98): the flags are not touched. -/
def driverSetReg (r : Reg) (v : Word) (s : State) : State := s.setReg r v

/-- The read accessors (R97). -/
def readReg (s : State) (r : Reg) : Word := s.reg r

def readFlags (s : State) : Flags := s.flags

def readPc (s : State) : Word := s.pc

def readMem (s : State) (a : Word) : Word := s.memRead a

/-- Between two steps the driver may change what services there are (R86). The spec gives no operation for it
(spec/91_not_in_source.md N14): this one is the model's (DESIGN CHOICE, log entry 2). -/
def driverSetServices (p : List (BitVec 8 × TrapAnswer)) (s : State) : State := s.setServices p

/-- The state a fault leaves the Machine in (R56); none where the service never answers. -/
def Fault.left : Fault → Option State
  | .decodeError t => some t
  | .addressSpaceViolation t => some t
  | .trapUnregistered t => some t
  | .trapNeverAnswers _ => none

/-- The state a step's answer leaves the Machine in, the outcome being that state's `outcome` (R51, R56); none where the
step never returns. -/
def stateLeft (r : Result) : Option State :=
  match r with
  | .next t => some t
  | .fault f => f.left
  | .refused _ => none

/-- `step()` as the driver sees it: the state it leaves. A driver that goes on after an error goes on from here (R92). -/
def driverStep (s : State) : Option State := stateLeft (step s)

/-- Where a run stands (R57). -/
inductive RunResult where
  /-- `run()` returned: the state of the first step whose outcome is not `Normal`. -/
  | returned (s : State)
  /-- Every step so far was `Normal`. -/
  | running (s : State)
  /-- A trap service never answered. -/
  | stuck
  deriving DecidableEq, Repr

/-- The first `k` steps of `run()` (R57): it has no step limit of its own and may never return. -/
def runFor : Nat → State → RunResult
  | 0, s => .running s
  | k + 1, s =>
    match driverStep s with
    | none => .stuck
    | some t => if t.outcome = .normal then runFor k t else .returned t

end Sys2Proof.Machine
end

