-- ==== Sys2Proof/Machine/Serviced.lean ====
section
/-! DEFINITION. `step()` and `run()` with the parameter `TRAP_SERVICE` as their argument (R86, spec/70 R104).

The service is asked at each TRAP, in the state the TRAP is in, and is never used up: it stands for the life of the
Machine. The field `services`, from which `step` takes its answers, is neither read nor changed (log entry 2). -/

namespace Sys2Proof.Machine

/-- The results an instruction may have under a service: TRAP's are the service's (R75), every other instruction has its
one meaning. -/
def ExecUnder (svc : TrapService) (i : Instr) (s : State) (r : Result) : Prop :=
  (∃ vector, i = .trap vector ∧ TrapUnder svc vector s r) ∨ (i.opcode ≠ .trap ∧ r = exec i s)

/-- The results `step()` may have under a service (R50); none where it never answers: the run is stuck (R86). -/
def StepUnder (svc : TrapService) (s : State) (r : Result) : Prop :=
  match advancePc s with
  | none => r = raise .addressSpaceViolation s
  | some s' => ExecUnder svc (decode (fetch s)) s' r

/-- Where the first `k` steps of `run()` under a service may stand (R57): a step with `Normal` goes on from the state it
leaves, any other outcome is returned with its state, and a step without a result leaves the run stuck. -/
def RunUnder (svc : TrapService) : Nat → State → RunResult → Prop
  | 0, s, r => r = .running s
  | k + 1, s, r =>
    (∃ a t, StepUnder svc s a ∧ stateLeft a = some t ∧
      if t.outcome = .normal then RunUnder svc k t r else r = .returned t) ∨
    ((∀ a, ¬ StepUnder svc s a) ∧ r = .stuck)

/-- The same run with other answers pending. -/
def RunResult.setServices (r : RunResult) (p : List (BitVec 8 × TrapAnswer)) : RunResult :=
  match r with
  | .returned s => .returned (s.setServices p)
  | .running s => .running (s.setServices p)
  | .stuck => .stuck

end Sys2Proof.Machine
end

