-- ==== Sys2Proof/Safety.lean ====
section
/-! DEFINITION. What the statements are written in: the invariant of a state, how a run ends well, and what an
instruction changes and leaves. -/

namespace Sys2Proof.Machine

/-- At most one flag is set (R14) and memory is in its one form, every listed address below 65536 (R9). -/
def State.Inv (s : State) : Prop := s.flags.legal = true ∧ s.mem.wf

/-- A run that ended well: `run()` returned `Halted` (R57, R92). -/
def EndsWell (k : Nat) (s : State) : Prop := ∃ t, runFor k s = .returned t ∧ t.outcome = .halted

/-- The same under a service: every run of `k` steps that it allows has returned `Halted`. -/
def EndsWellUnder (svc : TrapService) (k : Nat) (s : State) : Prop :=
  ∀ r, RunUnder svc k s r → ∃ t, r = .returned t ∧ t.outcome = .halted

/-- The flags are those of the word `v` read as signed (R15). -/
def FlagsMatch (f : Flags) (v : Word) : Prop :=
  (f.n = true ↔ v.toInt < 0) ∧ (f.z = true ↔ v.toInt = 0) ∧ (f.p = true ↔ v.toInt > 0)

/-- Every word of memory reads as before. -/
def SameMemory (s t : State) : Prop := ∀ a, t.memRead a = s.memRead a

/-- Every register reads as before. -/
def SameRegs (s t : State) : Prop := ∀ r, t.reg r = s.reg r

/-- Every register but `d` reads as before. -/
def SameRegsBut (d : Reg) (s t : State) : Prop := ∀ r, r ≠ d → t.reg r = s.reg r

/-- The word at `a` is `v`, and every other word of memory reads as before. -/
def StoresWord (a v : Word) (s t : State) : Prop :=
  t.memRead a = v ∧ ∀ b, b ≠ a → t.memRead b = s.memRead b

/-- An instruction that ends with `Normal`, whose whole effect on registers and flags is to put `v` in `d` and set the
flags from it, and which leaves memory, `pc` and the pending service answers alone. -/
def WritesResult (d : Reg) (v : Word) (s t : State) : Prop :=
  t.outcome = .normal ∧ t.reg d = v ∧ SameRegsBut d s t ∧ FlagsMatch t.flags v ∧ SameMemory s t ∧
    t.pc = s.pc ∧ t.services = s.services

/-- An instruction that ends with `Normal`, whose whole effect is to store `v` at `a`. -/
def OnlyStores (a v : Word) (s t : State) : Prop :=
  t.outcome = .normal ∧ StoresWord a v s t ∧ SameRegs s t ∧ t.flags = s.flags ∧ t.pc = s.pc ∧
    t.services = s.services

/-- An instruction that ends with `Normal`, whose whole effect is to set `pc`. -/
def OnlySetsPc (a : Word) (s t : State) : Prop :=
  t.outcome = .normal ∧ t.pc = a ∧ SameRegs s t ∧ t.flags = s.flags ∧ SameMemory s t ∧ t.services = s.services

/-- The state of the Machine is as it was: only the value handed to the driver is new. -/
def OnlyReports (o : StepOutcome) (s t : State) : Prop :=
  t.outcome = o ∧ t.mem = s.mem ∧ t.regs = s.regs ∧ t.pc = s.pc ∧ t.flags = s.flags ∧ t.services = s.services

/-- The last word a list of writes gives a place. -/
def lastWrite {α : Type} [DecidableEq α] : List (α × Word) → α → Option Word
  | [], _ => none
  | (k, v) :: rest, a =>
    match lastWrite rest a with
    | some u => some u
    | none => if k = a then some v else none

/-- A TRAP that ran its service with effect `e` (R75, R86): each register and memory word is the service's last write to
it, else, for `R[7]`, the return address, else what it was; the flags are the service's or what they were; `p` is pending. -/
def AfterTrap (e : ServiceEffect) (p : List (BitVec 8 × TrapAnswer)) (s t : State) : Prop :=
  (∀ r, t.reg r = (lastWrite e.regs r).getD (if r = .r7 then s.pc else s.reg r)) ∧
    (∀ a, t.memRead a = (lastWrite e.mem a).getD (s.memRead a)) ∧
    t.flags = (e.flags.map FlagState.flags).getD s.flags ∧ t.services = p

/-! ## What an instruction names, read off the spec's tables -/

/-- The register an instruction writes its result to (R11, R16). TRAP's `R[7]` is no result. -/
def resultReg : Instr → Option Reg
  | .addReg dst _ _ => some dst
  | .addImm dst _ _ => some dst
  | .andReg dst _ _ => some dst
  | .andImm dst _ _ => some dst
  | .notReg dst _ => some dst
  | .ld reg _ => some reg
  | .ldi reg _ => some reg
  | .ldr reg _ _ => some reg
  | .lea reg _ => some reg
  | .st _ _ => none
  | .sti _ _ => none
  | .str _ _ _ => none
  | .br _ _ _ _ => none
  | .jmp _ => none
  | .trap _ => none
  | .undefined0100 => none
  | .undefined1000 => none
  | .undefined1101 => none

/-- The address an instruction stores to and the register it stores, where it stores one (R25, R28); `s` is the state
with the incremented pc. -/
def storeTarget (i : Instr) (s : State) : Option (Word × Reg) :=
  match i with
  | .st reg off9 => (pcRelative off9 s).map (fun a => (a, reg))
  | .sti reg off9 => (indirect off9 s).map (fun a => (a, reg))
  | .str reg base off6 => (baseOffset base off6 s).map (fun a => (a, reg))
  | .br _ _ _ _ => none
  | .addReg _ _ _ => none
  | .addImm _ _ _ => none
  | .ld _ _ => none
  | .andReg _ _ _ => none
  | .andImm _ _ _ => none
  | .ldr _ _ _ => none
  | .notReg _ _ => none
  | .ldi _ _ => none
  | .jmp _ => none
  | .lea _ _ => none
  | .trap _ => none
  | .undefined0100 => none
  | .undefined1000 => none
  | .undefined1101 => none

/-- The exact integer that an instruction's one `EA` checks, where it calls `EA` (R79): BR only when taken. -/
def addressSum (i : Instr) (s : State) : Option Int :=
  match i with
  | .ld _ off9 => some (s.pc.toNat + off9)
  | .st _ off9 => some (s.pc.toNat + off9)
  | .ldi _ off9 => some (s.pc.toNat + off9)
  | .sti _ off9 => some (s.pc.toNat + off9)
  | .lea _ off9 => some (s.pc.toNat + off9)
  | .ldr _ base off6 => some ((s.reg base).toNat + off6)
  | .str _ base off6 => some ((s.reg base).toNat + off6)
  | .br n z p off9 =>
    if (n = true ∧ s.flags.n = true) ∨ (z = true ∧ s.flags.z = true) ∨ (p = true ∧ s.flags.p = true)
    then some (s.pc.toNat + off9) else none
  | .addReg _ _ _ => none
  | .addImm _ _ _ => none
  | .andReg _ _ _ => none
  | .andImm _ _ _ => none
  | .notReg _ _ => none
  | .jmp _ => none
  | .trap _ => none
  | .undefined0100 => none
  | .undefined1000 => none
  | .undefined1101 => none

/-- The width and value of an instruction's signed operand: "exactly three fields are signed" (R36). -/
def signedOperand : Instr → Option (Nat × Int)
  | .addImm _ _ imm => some (5, imm)
  | .andImm _ _ imm => some (5, imm)
  | .ldr _ _ off6 => some (6, off6)
  | .str _ _ off6 => some (6, off6)
  | .ld _ off9 => some (9, off9)
  | .st _ off9 => some (9, off9)
  | .ldi _ off9 => some (9, off9)
  | .sti _ off9 => some (9, off9)
  | .lea _ off9 => some (9, off9)
  | .br _ _ _ off9 => some (9, off9)
  | .addReg _ _ _ => none
  | .andReg _ _ _ => none
  | .notReg _ _ => none
  | .jmp _ => none
  | .trap _ => none
  | .undefined0100 => none
  | .undefined1000 => none
  | .undefined1101 => none

/-- One of the three decode failures (R44). -/
def isUndefined (i : Instr) : Bool :=
  decide (i.opcode = .undefined0100 ∨ i.opcode = .undefined1000 ∨ i.opcode = .undefined1101)

/-- A TRAP. -/
def isTrap (i : Instr) : Bool := decide (i.opcode = .trap)

end Sys2Proof.Machine
end

