-- ==== Sys2Proof/Certificates/Slice0/Obligations.lean ====
section
/-! DEFINITION. The statements for the provers: what the numbered rules say the Machine does.

Where a docstring names a decision D<n>, that clause rests on a choice the spec marks as its own
(spec/92_eei_decisions.md), and the statement is listed with basis "derived". In the instruction statements `s` is
the state with the incremented pc, as `exec` is given it (StepRunsTheDecodedInstruction). -/

open Sys2Proof Sys2Proof.Machine

/-! ## Encoding -/

/-- Words written out from spec/30_encoding.md decode to the instructions they stand for. The opcode numbers are
decision D1 (log entry 1); that the AND, JMP and TRAP words, whose ignored bits are set, decode so is decision D13 (log
entry 19). -/
def Obligations.WordsOfEachLayoutDecode : Prop :=
  decode 0b0001000001100101#16 = .addImm .r0 .r1 5 ∧
  decode 0b0101010000011001#16 = .andReg .r2 .r0 .r1 ∧
  decode 0b0011000111111111#16 = .st .r0 (-1) ∧
  decode 0b0110011110111111#16 = .ldr .r3 .r6 (-1) ∧
  decode 0b0000010000000100#16 = .br false true false 4 ∧
  decode 0b1100111011111111#16 = .jmp .r3 ∧
  decode 0b1111111100100101#16 = .trap 0x25#8 ∧
  decode 0b1101000000000000#16 = .undefined1101

/-- Under every opcode map that is one table, decoding the word of a well-formed instruction gives it back, with every
operand at every value its field admits. -/
def Obligations.DecodeOfEncodeIsTheInstruction : Prop :=
  ∀ m : OpcodeMap, m.Consistent → ∀ i : Instr, i.wf = true → decodeWith m (encodeWith m i) = i

/-- Every word decodes to an instruction that has an encoding, and encoding it again gives the word's own bits wherever
its layout names a field. That the other bits are ignored is decision D13. -/
def Obligations.EncodeOfDecodeKeepsNamedBits : Prop :=
  ∀ m : OpcodeMap, m.Consistent → ∀ w : Word,
    (decodeWith m w).wf = true ∧
      encodeWith m (decodeWith m w) &&& (decodeWith m w).namedBits = w &&& (decodeWith m w).namedBits

/-- R45: words that differ in ignored bits only decode alike. Decision D13 for all but NOT. -/
def Obligations.IgnoredBitsDoNotMatter : Prop :=
  ∀ v w : Word, v &&& (decode v).namedBits = w &&& (decode v).namedBits → decode w = decode v

/-- R35: the extractor is floor(uval(w) / 2^(p-1)) mod 2^k, the 0-based slice of the same bits. -/
def Obligations.ExtractorIsTheSlice : Prop :=
  ∀ (w : Word) (p k : Nat), 1 ≤ p → 1 ≤ k → p + k - 1 ≤ 16 →
    (field w p k).toNat = w.toNat / 2 ^ (p - 1) % 2 ^ k ∧
      ∀ i, i < k → (field w p k).getLsbD i = w.getLsbD (p - 1 + i)

/-- R36: the sign-extender's value, its 16-bit pattern, its ranges, the source's example, and that every signed operand a
word decodes to is the sign extension of its own field. -/
def Obligations.SignExtension : Prop :=
  (∀ (k : Nat) (f : BitVec k), 1 ≤ k →
    (f.toNat < 2 ^ (k - 1) → sext f = f.toNat) ∧ (2 ^ (k - 1) ≤ f.toNat → sext f = f.toNat - 2 ^ k) ∧
      (k ≤ 16 → ∀ i, i < 16 → (bv16 (sext f)).getLsbD i = if i < k then f.getLsbD i else f.getLsbD (k - 1))) ∧
  (∀ f : BitVec 5, -16 ≤ sext f ∧ sext f ≤ 15) ∧
  (∀ f : BitVec 6, -32 ≤ sext f ∧ sext f ≤ 31) ∧
  (∀ f : BitVec 9, -256 ≤ sext f ∧ sext f ≤ 255) ∧
  (sext 0b10001#5 = -15 ∧ bv16 (sext 0b10001#5) = 0xFFF1#16) ∧
  (∀ (w : Word) (k : Nat) (x : Int), signedOperand (decode w) = some (k, x) → x = sext (field w 1 k))

/-! ## Operate instructions -/

/-- R58, under every opcode map: what the ALU's three operations share. `mode` is `w[5]`, `src1` is `w[8:6]`, `src2` is
`w[2:0]`, `dst` is `w[11:9]`; every operand is read from the state before the write, and no outcome but `Normal` is
possible. That a register form of ADD or AND does the same whatever its `w[4:3]` is decision D13 (log entry 19); that the
pending answers stay is about the model's field (log entry 2). -/
def Obligations.OperateInstructionsShareOneShape : Prop :=
  ∀ (m : OpcodeMap) (w : Word) (s : State),
    let a := s.reg (Reg.ofBits (w.extractLsb' 6 3))
    let b := if w.getLsbD 5 = false then s.reg (Reg.ofBits (w.extractLsb' 0 3)) else (w.extractLsb' 0 5).signExtend 16
    let dst := Reg.ofBits (w.extractLsb' 9 3)
    (m.ofBits (w.extractLsb' 12 4) = .add → ∃ t v, exec (decodeWith m w) s = .next t ∧
      v.toNat = (a.toNat + b.toNat) % 65536 ∧ WritesResult dst v s t) ∧
    (m.ofBits (w.extractLsb' 12 4) = .and → ∃ t v, exec (decodeWith m w) s = .next t ∧
      (∀ i, i < 16 → v.getLsbD i = (a.getLsbD i && b.getLsbD i)) ∧ WritesResult dst v s t) ∧
    (m.ofBits (w.extractLsb' 12 4) = .not → ∃ t v, exec (decodeWith m w) s = .next t ∧
      (∀ i, i < 16 → v.getLsbD i = !a.getLsbD i) ∧ WritesResult dst v s t)

/-- R59: ADD, register form, from its word to its effect and frame. The opcode number is decision D1; that its word may hold
anything in `w[4:3]` is decision D13 (log entry 19). -/
def Obligations.AddRegisterForm : Prop :=
  (∀ w : Word, w &&& 0xF020#16 = 0x1000#16 →
    decode w = .addReg (Reg.ofBits (w.extractLsb' 9 3)) (Reg.ofBits (w.extractLsb' 6 3)) (Reg.ofBits (w.extractLsb' 0 3))) ∧
  ∀ dst src1 src2 s, ∃ t v, exec (.addReg dst src1 src2) s = .next t ∧
    v.toNat = ((s.reg src1).toNat + (s.reg src2).toNat) % 65536 ∧ WritesResult dst v s t

/-- R60: ADD, immediate form, for every immediate. The opcode number is decision D1. -/
def Obligations.AddImmediateForm : Prop :=
  (∀ w : Word, w &&& 0xF020#16 = 0x1020#16 →
    decode w = .addImm (Reg.ofBits (w.extractLsb' 9 3)) (Reg.ofBits (w.extractLsb' 6 3)) (w.extractLsb' 0 5).toInt) ∧
  ∀ dst src1 imm s, ∃ t v, exec (.addImm dst src1 imm) s = .next t ∧
    (v.toNat : Int) = (((s.reg src1).toNat : Int) + imm) % 65536 ∧ WritesResult dst v s t

/-- R61: AND, register form. The opcode number is decision D1; that its word may hold anything in `w[4:3]` is decision D13
(log entry 19). -/
def Obligations.AndRegisterForm : Prop :=
  (∀ w : Word, w &&& 0xF020#16 = 0x5000#16 →
    decode w = .andReg (Reg.ofBits (w.extractLsb' 9 3)) (Reg.ofBits (w.extractLsb' 6 3)) (Reg.ofBits (w.extractLsb' 0 3))) ∧
  ∀ dst src1 src2 s, ∃ t v, exec (.andReg dst src1 src2) s = .next t ∧
    (∀ i, i < 16 → v.getLsbD i = ((s.reg src1).getLsbD i && (s.reg src2).getLsbD i)) ∧ WritesResult dst v s t

/-- R62: AND, immediate form: the mask is the sign-extended immediate, for every immediate its field admits. The opcode
number is decision D1. -/
def Obligations.AndImmediateForm : Prop :=
  (∀ w : Word, w &&& 0xF020#16 = 0x5020#16 →
    decode w = .andImm (Reg.ofBits (w.extractLsb' 9 3)) (Reg.ofBits (w.extractLsb' 6 3)) (w.extractLsb' 0 5).toInt) ∧
  ∀ dst src1 (f : BitVec 5) s, ∃ t v, exec (.andImm dst src1 f.toInt) s = .next t ∧
    (∀ i, i < 16 → v.getLsbD i = ((s.reg src1).getLsbD i && if i < 5 then f.getLsbD i else f.getLsbD 4)) ∧
    WritesResult dst v s t

/-- R63: NOT. The opcode number is decision D1. -/
def Obligations.NotComplementsItsSource : Prop :=
  (∀ w : Word, w &&& 0xF000#16 = 0x9000#16 →
    decode w = .notReg (Reg.ofBits (w.extractLsb' 9 3)) (Reg.ofBits (w.extractLsb' 6 3))) ∧
  ∀ dst src1 s, ∃ t v, exec (.notReg dst src1) s = .next t ∧
    v.toNat = 65535 - (s.reg src1).toNat ∧ WritesResult dst v s t

/-! ## Memory access -/

/-- R65: LD. The opcode number is decision D1; that the address counts from the incremented pc is D2; that the violation
keeps the incremented pc is D7. -/
def Obligations.LdLoadsThePcRelativeWord : Prop :=
  (∀ w : Word, w &&& 0xF000#16 = 0x2000#16 → decode w = .ld (Reg.ofBits (w.extractLsb' 9 3)) (w.extractLsb' 0 9).toInt) ∧
  (∀ reg off9 s (a : Word), (a.toNat : Int) = s.pc.toNat + off9 →
    ∃ t, exec (.ld reg off9) s = .next t ∧ WritesResult reg (s.memRead a) s t) ∧
  ∀ reg off9 s, ((s.pc.toNat : Int) + off9 < 0 ∨ (s.pc.toNat : Int) + off9 > 65535) →
    ∃ t, exec (.ld reg off9) s = .fault (.addressSpaceViolation t) ∧ OnlyReports .addressSpaceViolation s t

/-- R66: ST, with the address the meaning computes, and every other word of memory unchanged. Decisions D1, D2 and D7 as
for LD. -/
def Obligations.StStoresAtThePcRelativeAddress : Prop :=
  (∀ w : Word, w &&& 0xF000#16 = 0x3000#16 → decode w = .st (Reg.ofBits (w.extractLsb' 9 3)) (w.extractLsb' 0 9).toInt) ∧
  (∀ reg off9 s (a : Word), (a.toNat : Int) = s.pc.toNat + off9 →
    pcRelative off9 s = some a ∧ ∃ t, exec (.st reg off9) s = .next t ∧ OnlyStores a (s.reg reg) s t) ∧
  ∀ reg off9 s, ((s.pc.toNat : Int) + off9 < 0 ∨ (s.pc.toNat : Int) + off9 > 65535) →
    ∃ t, exec (.st reg off9) s = .fault (.addressSpaceViolation t) ∧ OnlyReports .addressSpaceViolation s t

/-- R67: LDI: the pointer cell is PC-relative, the pointer is read unsigned (D4) and so is always in range, the flags come
from the loaded word. Decisions D1, D2 and D7 as for LD. -/
def Obligations.LdiLoadsThroughThePointer : Prop :=
  (∀ w : Word, w &&& 0xF000#16 = 0xA000#16 → decode w = .ldi (Reg.ofBits (w.extractLsb' 9 3)) (w.extractLsb' 0 9).toInt) ∧
  (∀ reg off9 s (a : Word), (a.toNat : Int) = s.pc.toNat + off9 →
    ∃ t, exec (.ldi reg off9) s = .next t ∧ WritesResult reg (s.memRead (s.memRead a)) s t) ∧
  ∀ reg off9 s, ((s.pc.toNat : Int) + off9 < 0 ∨ (s.pc.toNat : Int) + off9 > 65535) →
    ∃ t, exec (.ldi reg off9) s = .fault (.addressSpaceViolation t) ∧ OnlyReports .addressSpaceViolation s t

/-- R68: STI: the word is stored where the pointer cell points, and nowhere else. Decisions D1, D2, D4 and D7 as for
LDI. -/
def Obligations.StiStoresThroughThePointer : Prop :=
  (∀ w : Word, w &&& 0xF000#16 = 0xB000#16 → decode w = .sti (Reg.ofBits (w.extractLsb' 9 3)) (w.extractLsb' 0 9).toInt) ∧
  (∀ reg off9 s (a : Word), (a.toNat : Int) = s.pc.toNat + off9 →
    indirect off9 s = some (s.memRead a) ∧
      ∃ t, exec (.sti reg off9) s = .next t ∧ OnlyStores (s.memRead a) (s.reg reg) s t) ∧
  ∀ reg off9 s, ((s.pc.toNat : Int) + off9 < 0 ∨ (s.pc.toNat : Int) + off9 > 65535) →
    ∃ t, exec (.sti reg off9) s = .fault (.addressSpaceViolation t) ∧ OnlyReports .addressSpaceViolation s t

/-- R69: LDR: the base is read unsigned (D4), from the state before the load, so `reg = base` is allowed. Decisions D1 and
D7 as for LD. -/
def Obligations.LdrLoadsFromBasePlusOffset : Prop :=
  (∀ w : Word, w &&& 0xF000#16 = 0x6000#16 →
    decode w = .ldr (Reg.ofBits (w.extractLsb' 9 3)) (Reg.ofBits (w.extractLsb' 6 3)) (w.extractLsb' 0 6).toInt) ∧
  (∀ reg base off6 s (a : Word), (a.toNat : Int) = (s.reg base).toNat + off6 →
    ∃ t, exec (.ldr reg base off6) s = .next t ∧ WritesResult reg (s.memRead a) s t) ∧
  ∀ reg base off6 s, (((s.reg base).toNat : Int) + off6 < 0 ∨ ((s.reg base).toNat : Int) + off6 > 65535) →
    ∃ t, exec (.ldr reg base off6) s = .fault (.addressSpaceViolation t) ∧ OnlyReports .addressSpaceViolation s t

/-- R70: STR. Decisions D1, D4 and D7 as for LDR. -/
def Obligations.StrStoresAtBasePlusOffset : Prop :=
  (∀ w : Word, w &&& 0xF000#16 = 0x7000#16 →
    decode w = .str (Reg.ofBits (w.extractLsb' 9 3)) (Reg.ofBits (w.extractLsb' 6 3)) (w.extractLsb' 0 6).toInt) ∧
  (∀ reg base off6 s (a : Word), (a.toNat : Int) = (s.reg base).toNat + off6 →
    baseOffset base off6 s = some a ∧
      ∃ t, exec (.str reg base off6) s = .next t ∧ OnlyStores a (s.reg reg) s t) ∧
  ∀ reg base off6 s, (((s.reg base).toNat : Int) + off6 < 0 ∨ ((s.reg base).toNat : Int) + off6 > 65535) →
    ∃ t, exec (.str reg base off6) s = .fault (.addressSpaceViolation t) ∧ OnlyReports .addressSpaceViolation s t

/-- R71: LEA: the address itself, checked (D5), with the flags set from it. Decisions D1, D2 and D7 as for LD. -/
def Obligations.LeaLoadsTheAddress : Prop :=
  (∀ w : Word, w &&& 0xF000#16 = 0xE000#16 → decode w = .lea (Reg.ofBits (w.extractLsb' 9 3)) (w.extractLsb' 0 9).toInt) ∧
  (∀ reg off9 s (a : Word), (a.toNat : Int) = s.pc.toNat + off9 →
    ∃ t, exec (.lea reg off9) s = .next t ∧ WritesResult reg a s t) ∧
  ∀ reg off9 s, ((s.pc.toNat : Int) + off9 < 0 ∨ (s.pc.toNat : Int) + off9 > 65535) →
    ∃ t, exec (.lea reg off9) s = .fault (.addressSpaceViolation t) ∧ OnlyReports .addressSpaceViolation s t

/-- R71's source property: after LEA, LDR and STR from that register at offset 0 reach the cell that LD and ST with the
same offset reach, for every address (D4). The second instruction of each pair runs at the pc the step gives it. -/
def Obligations.LeaThenBaseOffsetReachesTheSameCell : Prop :=
  ∀ (r x : Reg) (off9 : Int) (s : State), 0 ≤ (s.pc.toNat : Int) + off9 → (s.pc.toNat : Int) + off9 ≤ 65535 →
    ∃ t, exec (.lea r off9) s = .next t ∧
      (∃ u v, exec (.ldr x r 0) (t.setPc (t.pc + 1)) = .next u ∧ exec (.ld x off9) s = .next v ∧ u.reg x = v.reg x) ∧
      (x ≠ r → ∃ u v, exec (.str x r 0) (t.setPc (t.pc + 1)) = .next u ∧ exec (.st x off9) s = .next v ∧
        ∀ a, u.memRead a = v.memRead a)

/-! ## Control flow -/

/-- R73: BR: taken exactly when a requested bit meets its flag; the target is checked only then (D6). The opcode number is
decision D1; that the offset counts from the incremented pc is D2; that the violation keeps it is D7. -/
def Obligations.BrBranchesOnTheFlags : Prop :=
  (∀ w : Word, w &&& 0xF000#16 = 0x0000#16 →
    decode w = .br (w.getLsbD 11) (w.getLsbD 10) (w.getLsbD 9) (w.extractLsb' 0 9).toInt) ∧
  ∀ n z p off9 s,
    let taken := (n = true ∧ s.flags.n = true) ∨ (z = true ∧ s.flags.z = true) ∨ (p = true ∧ s.flags.p = true)
    (¬ taken → ∃ t, exec (.br n z p off9) s = .next t ∧ OnlySetsPc s.pc s t) ∧
    (taken → ∀ a : Word, (a.toNat : Int) = s.pc.toNat + off9 →
      ∃ t, exec (.br n z p off9) s = .next t ∧ OnlySetsPc a s t) ∧
    (taken → ((s.pc.toNat : Int) + off9 < 0 ∨ (s.pc.toNat : Int) + off9 > 65535) →
      ∃ t, exec (.br n z p off9) s = .fault (.addressSpaceViolation t) ∧ OnlyReports .addressSpaceViolation s t)

/-- R74: JMP: the register is the target, read unsigned (D4), and nothing is added to it. The opcode number is decision D1;
that its other bits are ignored is D13 (log entry 19). -/
def Obligations.JmpGoesToItsRegister : Prop :=
  (∀ w : Word, w &&& 0xF000#16 = 0xC000#16 → decode w = .jmp (Reg.ofBits (w.extractLsb' 6 3))) ∧
  ∀ base s, ∃ t, exec (.jmp base) s = .next t ∧ OnlySetsPc (s.reg base) s t

/-- R75, R76: TRAP. The answer of a vector is its first in the list, and every other pending answer stays, in order; a
vector that the list does not hold has no service (log entry 2). For each answer: `R[7]` holds the return address when the
service is called (D23), the core writes no flag (D9), `Halt` leaves the incremented pc (D12), `Resume` goes to the answered
address (D11). What the service itself writes is D10; that an answer is data pending in the state is the model's (log
entry 2). The opcode number is D1; that `w[11:8]` is ignored is D13 (log entry 19). -/
def Obligations.TrapCallsTheServiceOfItsVector : Prop :=
  (∀ w : Word, w &&& 0xF000#16 = 0xF000#16 → decode w = .trap (w.extractLsb' 0 8)) ∧
  (∀ vector earlier answer later, (∀ x ∈ earlier, x.1 ≠ vector) →
    takeAnswer vector (earlier ++ (vector, answer) :: later) = (answer, earlier ++ later)) ∧
  (∀ vector p, (∀ x ∈ p, x.1 ≠ vector) → takeAnswer vector p = (.unregistered, p)) ∧
  ∀ vector s p,
    (∀ e, takeAnswer vector s.services = (.halt e, p) → ∃ t, exec (.trap vector) s = .next t ∧
      t.outcome = .halted ∧ t.pc = s.pc ∧ AfterTrap e p s t) ∧
    (∀ e a, takeAnswer vector s.services = (.resume e a, p) → ∃ t, exec (.trap vector) s = .next t ∧
      t.outcome = .normal ∧ t.pc = a ∧ AfterTrap e p s t) ∧
    (takeAnswer vector s.services = (.unregistered, p) → ∃ t, exec (.trap vector) s = .fault (.trapUnregistered t) ∧
      t.outcome = .trapUnregistered ∧ t.pc = s.pc ∧ t.reg .r7 = s.pc ∧ SameRegsBut .r7 s t ∧ t.flags = s.flags ∧
      SameMemory s t ∧ t.services = p) ∧
    (takeAnswer vector s.services = (.never, p) → ∃ t, exec (.trap vector) s = .fault (.trapNeverAnswers t) ∧
      t.pc = s.pc ∧ t.reg .r7 = s.pc ∧ SameRegsBut .r7 s t ∧ t.flags = s.flags ∧ SameMemory s t ∧ t.services = p)

/-- R86: the answers that stand pending in a state are no more and no less than what `TRAP_SERVICE` may answer. For every
service that keeps the contract, each result its TRAP may have is the model's result under some pending answer; and each
result of the model is one of a service that keeps the contract, or is the stuck run of a service that never answers.
R86 is decision D10, and the pending answers are the model's (log entry 2). -/
def Obligations.PendingAnswersAreEveryTrapService : Prop :=
  (∀ svc : TrapService, svc.Lawful → ∀ vector s r, s.Inv → s.services = [] → TrapUnder svc vector s r →
    ∃ answer, exec (.trap vector) (s.setServices [(vector, answer)]) = r) ∧
  ∀ vector s r, s.Inv → exec (.trap vector) s = r →
    (∃ t, r = .fault (.trapNeverAnswers t)) ∨
    ∃ svc : TrapService, svc.Lawful ∧ TrapUnder svc vector (s.setServices (takeAnswer vector s.services).2) r

/-- R86's two instances keep the contract, and a TRAP under them has the results of R86 and no other: SVC_MIN halts at 0x25
and has no other service; SVC_RET also returns to the caller at 0x21. -/
def Obligations.MinimalServicesHaltAndReturn : Prop :=
  svcMin.Lawful ∧ svcRet.Lawful ∧
  ∀ s r,
    (TrapUnder svcMin 0x25#8 s r ↔ r = returnHalted (trapEntry s)) ∧
    (∀ v, v ≠ 0x25#8 → (TrapUnder svcMin v s r ↔ r = raise .trapUnregistered (trapEntry s))) ∧
    (TrapUnder svcRet 0x25#8 s r ↔ r = returnHalted (trapEntry s)) ∧
    (TrapUnder svcRet 0x21#8 s r ↔ r = returnNormal (trapEntry s)) ∧
    (∀ v, v ≠ 0x25#8 → v ≠ 0x21#8 → (TrapUnder svcRet v s r ↔ r = raise .trapUnregistered (trapEntry s)))

/-- R44: the three undefined opcodes, whatever their other 12 bits, end the step with `DecodeError`, and nothing of the
Machine changes but the pc the step has already incremented. The opcode values are decisions D1 and D14; the state left is
D7. -/
def Obligations.UndefinedOpcodesAreDecodeErrors : Prop :=
  (∀ w : Word, (w &&& 0xF000#16 = 0x4000#16 → decode w = .undefined0100) ∧
    (w &&& 0xF000#16 = 0x8000#16 → decode w = .undefined1000) ∧
    (w &&& 0xF000#16 = 0xD000#16 → decode w = .undefined1101)) ∧
  ∀ s,
    (∃ t, exec .undefined0100 s = .fault (.decodeError t) ∧ OnlyReports .decodeError s t) ∧
    (∃ t, exec .undefined1000 s = .fault (.decodeError t) ∧ OnlyReports .decodeError s t) ∧
    (∃ t, exec .undefined1101 s = .fault (.decodeError t) ∧ OnlyReports .decodeError s t)

/-! ## State and primitives -/

/-- R15: `setcc` writes all three flags from the value read as signed, by each of the rule's two formulas and its corner
values, and changes nothing else. -/
def Obligations.SetccFollowsTheSign : Prop :=
  ∀ (s : State) (v : Word), FlagsMatch (s.setcc v).flags v ∧
    (s.setcc v).flags.n = v.getLsbD 15 ∧ (s.setcc v).flags.z = (v == 0#16) ∧
    (s.setcc v).flags.p = (!v.getLsbD 15 && v != 0#16) ∧
    (s.setcc 0x0000#16).flags = { n := false, z := true, p := false } ∧
    (s.setcc 0x0001#16).flags = { n := false, z := false, p := true } ∧
    (s.setcc 0x7FFF#16).flags = { n := false, z := false, p := true } ∧
    (s.setcc 0x8000#16).flags = { n := true, z := false, p := false } ∧
    (s.setcc 0xFFFF#16).flags = { n := true, z := false, p := false } ∧
    (s.setcc v).mem = s.mem ∧ (s.setcc v).regs = s.regs ∧ (s.setcc v).pc = s.pc

/-- R10: a 3-bit field selects one of eight registers by its value, each field a different one; each register takes every
value, a write to one leaves the others alone, and all hold 0 at reset. -/
def Obligations.RegistersAreEightIndependentWords : Prop :=
  (∀ b : BitVec 3, (Reg.ofBits b).bits = b) ∧ (∀ r : Reg, Reg.ofBits r.bits = r) ∧
  (∀ (s : State) (r q : Reg) (v : Word), (s.setReg r v).reg r = v ∧ (q ≠ r → (s.setReg r v).reg q = s.reg q)) ∧
  ∀ r : Reg, State.reset.reg r = 0#16

/-- R24: `MemWrite(a, v)` sets the word at `a`, whatever the address and value, and changes nothing else. -/
def Obligations.MemWriteSetsOneWord : Prop :=
  ∀ (s : State) (a v : Word),
    StoresWord a v s (s.memWrite a v) ∧ (s.memWrite a v).regs = s.regs ∧ (s.memWrite a v).pc = s.pc ∧
      (s.memWrite a v).flags = s.flags

/-- Equal memories are equal data (the model's own form, log entry 4): a write keeps the one form, and two memories in that
form that read alike at every address are the same list. -/
def Obligations.MemoriesThatReadAlikeAreEqual : Prop :=
  (∀ (m : Memory) (a v : Word), m.wf → (m.write a v).wf) ∧
  ∀ m k : Memory, m.wf → k.wf → (∀ a : Word, m.read a = k.read a) → m = k

/-- R26: the address calculator gives the exact sum where it is an address, and an instruction goes on with it; every other
sum ends the step with `AddressSpaceViolation`: it never wraps. -/
def Obligations.AddressCalculatorNeverWraps : Prop :=
  ∀ (b : Word) (o : Int) (s : State) (k : Word → Result),
    (0 ≤ (b.toNat : Int) + o ∧ (b.toNat : Int) + o ≤ 65535 →
      ∃ a, ea b o = some a ∧ (a.toNat : Int) = b.toNat + o ∧ withAddress (ea b o) s k = k a) ∧
    ((b.toNat : Int) + o < 0 ∨ (b.toNat : Int) + o > 65535 →
      ea b o = none ∧ withAddress (ea b o) s k = raise .addressSpaceViolation s)

/-- R19: every piece of the Machine's state has its value after creation and after `reset()`. -/
def Obligations.ResetZeroesEverything : Prop :=
  (∀ a : Word, State.reset.memRead a = 0#16) ∧ (∀ r : Reg, State.reset.reg r = 0#16) ∧ State.reset.pc = 0#16 ∧
  State.reset.flags = { n := false, z := false, p := false } ∧
  ∀ s : State, (∀ a : Word, (driverReset s).memRead a = 0#16) ∧ (∀ r : Reg, (driverReset s).reg r = 0#16) ∧
    (driverReset s).pc = 0#16 ∧ (driverReset s).flags = { n := false, z := false, p := false }

/-- R19's consequences, which the spec marks as derived: the first step after reset only advances `pc`, and with no flag
set no BR is taken. The word 0x0000 is a BR by decision D1; that no flag is set after reset is D8 (log entry 15); that a
BR not taken completes even where `pc + off9` is no address is D6 (log entry 13). -/
def Obligations.NoBranchIsTakenAfterReset : Prop :=
  step State.reset = .next (State.reset.setPc 1#16) ∧
  ∀ n z p off9 s, s.flags = State.reset.flags →
    ∃ t, exec (.br n z p off9) s = .next t ∧ OnlySetsPc s.pc s t

/-- R85, R87: trap entry saves the return address in `R[7]` and nothing else; trap return sets `pc` to the answered
address and restores nothing. That the write of `R[7]` sets no flag is decision D9 (log entry 16); that it comes before
the service is asked is D23 (log entry 14). -/
def Obligations.TrapEntryAndReturn : Prop :=
  ∀ (s : State) (a : Word),
    (trapEntry s).reg .r7 = s.pc ∧ SameRegsBut .r7 s (trapEntry s) ∧ (trapEntry s).flags = s.flags ∧
    (trapEntry s).mem = s.mem ∧ (trapEntry s).pc = s.pc ∧
    (trapReturn s a).pc = a ∧ (trapReturn s a).regs = s.regs ∧ (trapReturn s a).flags = s.flags ∧
    (trapReturn s a).mem = s.mem

/-! ## The instruction cycle -/

/-- R50, R52, R53: below the top of memory a step is the decoded instruction of the word at `pc`, run with `pc` already
incremented; at 65535 nothing runs and nothing of the Machine changes (decisions D2, D3, D21). -/
def Obligations.StepRunsTheDecodedInstruction : Prop :=
  ∀ s : State,
    (s.pc ≠ 0xFFFF#16 → step s = exec (decode (s.memRead s.pc)) (s.setPc (s.pc + 1))) ∧
    (s.pc = 0xFFFF#16 → ∃ t, step s = .fault (.addressSpaceViolation t) ∧ OnlyReports .addressSpaceViolation s t)

/-- The invariant, at most one flag (R14) and memory in its one form below address 65536 (R9), is kept by every step that
completes and by every error, whose state the driver may go on from (R56, R92). It rests on D8 and D10 for the flags and
on log entry 4 for the form. -/
def Obligations.StepKeepsTheInvariant : Prop :=
  ∀ s : State, s.Inv →
    (∀ t, step s = .next t → t.Inv) ∧ ∀ f t, step s = .fault f → f.left = some t → t.Inv

/-- The invariant holds at reset. -/
def Obligations.ResetMeetsTheInvariant : Prop := State.reset.Inv

/-- R51: every step ends in exactly one of five outcomes, each raised by the instructions the rule lists, but for a TRAP
whose service never answers (log entry 23); the model refuses no instruction. Each outcome is the one handed to the driver,
held in the model's field (log entry 3). The opcode values are D1 and D14, the fetch at 65535 is D3; that LEA is among the
checked is D5 (log entry 12), and that a BR is checked only when taken is D6 (log entry 13). -/
def Obligations.StepEndsInOneOfFiveOutcomes : Prop :=
  ∀ s : State,
    let i := decode (s.memRead s.pc)
    (∃ t, step s = .next t ∧ t.outcome = .normal ∧ s.pc ≠ 0xFFFF#16) ∨
    (∃ t, step s = .next t ∧ t.outcome = .halted ∧ s.pc ≠ 0xFFFF#16 ∧ isTrap i = true) ∨
    (∃ t, step s = .fault (.decodeError t) ∧ t.outcome = .decodeError ∧ s.pc ≠ 0xFFFF#16 ∧ isUndefined i = true) ∨
    (∃ t, step s = .fault (.addressSpaceViolation t) ∧ t.outcome = .addressSpaceViolation ∧
      (s.pc = 0xFFFF#16 ∨ ∃ x, addressSum i (s.setPc (s.pc + 1)) = some x)) ∨
    (∃ t, step s = .fault (.trapUnregistered t) ∧ t.outcome = .trapUnregistered ∧ s.pc ≠ 0xFFFF#16 ∧ isTrap i = true) ∨
    (∃ t, step s = .fault (.trapNeverAnswers t) ∧ s.pc ≠ 0xFFFF#16 ∧ isTrap i = true)

/-- R78, R84: a step ends with `DecodeError` exactly when the fetched opcode has no handler and the increment did not fail
first (D21); the failing word and its address are then found at `pc - 1` (D7, D19). -/
def Obligations.DecodeErrorExactlyOnUndefinedOpcodes : Prop :=
  ∀ s : State,
    ((∃ t, step s = .fault (.decodeError t)) ↔
      s.pc ≠ 0xFFFF#16 ∧ ((s.memRead s.pc).extractLsb' 12 4 = 0b0100#4 ∨ (s.memRead s.pc).extractLsb' 12 4 = 0b1000#4 ∨
        (s.memRead s.pc).extractLsb' 12 4 = 0b1101#4)) ∧
    ∀ t, step s = .fault (.decodeError t) →
      OnlyReports .decodeError (s.setPc (s.pc + 1)) t ∧ t.pc - 1 = s.pc ∧ t.memRead (t.pc - 1) = s.memRead s.pc

/-- R79: a step ends with `AddressSpaceViolation` exactly when it is fetched at 65535 (D3), or its one address sum is
outside 0 to 65535, a BR's only when taken (D6). -/
def Obligations.AddressViolationExactlyOutOfRange : Prop :=
  ∀ s : State,
    (∃ t, step s = .fault (.addressSpaceViolation t)) ↔
      s.pc = 0xFFFF#16 ∨
        ∃ x, addressSum (decode (s.memRead s.pc)) (s.setPc (s.pc + 1)) = some x ∧ (x < 0 ∨ x > 65535)

/-- R55, R56: a step that ends in an error has written nothing but the incremented pc, and, for TRAP, the return address in
`R[7]`; at 65535 it has written nothing at all (decisions D3, D7, D23). A TRAP's answer is no longer pending (log
entry 2). -/
def Obligations.ErrorsWriteNothingElse : Prop :=
  ∀ s t : State,
    (step s = .fault (.decodeError t) → OnlyReports .decodeError (s.setPc (s.pc + 1)) t) ∧
    (step s = .fault (.addressSpaceViolation t) →
      (s.pc = 0xFFFF#16 ∧ OnlyReports .addressSpaceViolation s t) ∨
      (s.pc ≠ 0xFFFF#16 ∧ OnlyReports .addressSpaceViolation (s.setPc (s.pc + 1)) t)) ∧
    (step s = .fault (.trapUnregistered t) →
      t.outcome = .trapUnregistered ∧ t.pc = s.pc + 1 ∧ t.reg .r7 = s.pc + 1 ∧ SameRegsBut .r7 s t ∧
        t.mem = s.mem ∧ t.flags = s.flags)

/-- R12, R13, R29: after a step that completes, `pc` is one higher, but for a taken BR, JMP and TRAP; a taken BR's is the
exact sum, and no `pc` has wrapped from 65535 to 0 (decisions D2, D3, and D12 for a TRAP that halts). -/
def Obligations.PcAdvancesByOneUnlessTransferred : Prop :=
  ∀ s t : State, step s = .next t →
    match decode (s.memRead s.pc) with
    | .br _ _ _ off9 =>
      if addressSum (decode (s.memRead s.pc)) (s.setPc (s.pc + 1)) = none then t.pc.toNat = s.pc.toNat + 1
      else (t.pc.toNat : Int) = s.pc.toNat + 1 + off9
    | .jmp base => t.pc = s.reg base
    | .trap _ => t.outcome = .halted → t.pc.toNat = s.pc.toNat + 1
    | _ => t.pc.toNat = s.pc.toNat + 1

/-- R14, R16: after a step that completes, the flags are exactly one of three, those of the word now in the result register,
if the instruction writes a result; they are as before if it does not, a TRAP's service apart (decision D9). -/
def Obligations.FlagsChangeOnlyWithAResult : Prop :=
  ∀ s t : State, step s = .next t →
    (∀ d, resultReg (decode (s.memRead s.pc)) = some d →
      FlagsMatch t.flags (t.reg d) ∧ t.flags.legal = true ∧ (t.flags.n || t.flags.z || t.flags.p) = true) ∧
    (resultReg (decode (s.memRead s.pc)) = none → isTrap (decode (s.memRead s.pc)) = false → t.flags = s.flags)

/-- R11: a step that completes writes no register but the one the rule's table names. What a TRAP writes is
TrapCallsTheServiceOfItsVector. -/
def Obligations.OnlyTheNamedRegisterIsWritten : Prop :=
  ∀ s t : State, step s = .next t → isTrap (decode (s.memRead s.pc)) = false →
    ∀ r, resultReg (decode (s.memRead s.pc)) ≠ some r → t.reg r = s.reg r

/-- R20, R25: a step that completes stores one word, at the address its mode gives, if it is ST, STI or STR; every other
word, and all of memory for the other instructions, a TRAP's service apart, reads as before. -/
def Obligations.OnlyStoresWriteMemory : Prop :=
  ∀ s t : State, step s = .next t →
    (∀ a r, storeTarget (decode (s.memRead s.pc)) (s.setPc (s.pc + 1)) = some (a, r) → StoresWord a (s.reg r) s t) ∧
    (storeTarget (decode (s.memRead s.pc)) (s.setPc (s.pc + 1)) = none → isTrap (decode (s.memRead s.pc)) = false →
      SameMemory s t)

/-- R33, which the spec marks as derived: a word stored where the next step fetches is the word that step decodes; and a
store to the executing instruction's own address has run as the word that was fetched. -/
def Obligations.NextFetchSeesTheStore : Prop :=
  ∀ (s t : State) (r : Reg), step s = .next t →
    (storeTarget (decode (s.memRead s.pc)) (s.setPc (s.pc + 1)) = some (t.pc, r) → t.pc ≠ 0xFFFF#16 →
      step t = exec (decode (s.reg r)) (t.setPc (t.pc + 1))) ∧
    (storeTarget (decode (s.memRead s.pc)) (s.setPc (s.pc + 1)) = some (s.pc, r) →
      t.memRead s.pc = s.reg r ∧ t.pc = s.pc + 1)

/-- R20: LEA, ADD, AND, NOT, BR and JMP never touch memory beyond their own fetch: what they do is the same over every
memory, and they leave it as it is. -/
def Obligations.OperateAndTransferIgnoreMemory : Prop :=
  ∀ (i : Instr) (s : State) (m : Memory),
    (i.opcode = .add ∨ i.opcode = .and ∨ i.opcode = .not ∨ i.opcode = .lea ∨ i.opcode = .br ∨ i.opcode = .jmp) →
    (∃ t, exec i s = .next t ∧ t.mem = s.mem ∧ exec i { s with mem := m } = .next { t with mem := m }) ∨
    ∃ t, exec i s = .fault (.addressSpaceViolation t) ∧ t.mem = s.mem ∧
      exec i { s with mem := m } = .fault (.addressSpaceViolation { t with mem := m })

/-- R16: of all but BR and TRAP, none reads the flags: two states that differ in the flags only give the same registers,
memory and pc, the same error, and, where the instruction writes a result, the same flags. -/
def Obligations.OnlyBrReadsTheFlags : Prop :=
  ∀ (i : Instr) (s : State) (f : Flags), i.opcode ≠ .br → i.opcode ≠ .trap →
    (∃ t u, exec i s = .next t ∧ exec i (s.setFlags f) = .next u ∧ u.setFlags t.flags = t ∧
      (resultReg i ≠ none → u.flags = t.flags) ∧ (resultReg i = none → u.flags = f)) ∨
    (∃ t, exec i s = .fault (.addressSpaceViolation t) ∧
      exec i (s.setFlags f) = .fault (.addressSpaceViolation (t.setFlags f))) ∨
    ∃ t, exec i s = .fault (.decodeError t) ∧ exec i (s.setFlags f) = .fault (.decodeError (t.setFlags f))

/-- R8, R56, R81: there is no halted or faulted latch: what a step does is the same whatever the step before it returned
(decision D12), but that the record of a service that never answers holds that value (log entry 3). -/
def Obligations.NoOutcomeIsLatched : Prop :=
  ∀ (s : State) (o : StepOutcome),
    step (s.setOutcome o) = step s ∨
      ∃ t, step s = .fault (.trapNeverAnswers t) ∧ step (s.setOutcome o) = .fault (.trapNeverAnswers (t.setOutcome o))

/-! ## The driver's operations -/

/-- R95: `load` fails exactly when the block would pass the end of the address space, writing nothing; else it writes each
word at its place, and no other word, register, flag or pc changes. -/
def Obligations.LoadWritesTheBlockOrFails : Prop :=
  ∀ (address : Nat) (words : List Word) (s : State),
    (address + words.length > 65536 → load address words s = (.failed, s)) ∧
    (address + words.length ≤ 65536 → ∃ t, load address words s = (.ok, t) ∧
      (∀ (j : Nat) (h : j < words.length), t.mem.readAt (address + j) = words[j]) ∧
      (∀ a : Nat, (a < address ∨ address + words.length ≤ a) → t.mem.readAt a = s.mem.readAt a) ∧
      t.regs = s.regs ∧ t.pc = s.pc ∧ t.flags = s.flags ∧ (s.mem.wf → t.mem.wf))

/-- R97, R98: the driver's two writes set `pc` and one register and nothing else; its accessors read what is there
(decision D16). -/
def Obligations.DriverSetsPcAndRegistersOnly : Prop :=
  ∀ (s : State) (a v : Word) (r : Reg),
    readPc (driverSetPc a s) = a ∧ (∀ q, readReg (driverSetPc a s) q = readReg s q) ∧
    readFlags (driverSetPc a s) = readFlags s ∧ (∀ b, readMem (driverSetPc a s) b = readMem s b) ∧
    readReg (driverSetReg r v s) r = v ∧ (∀ q, q ≠ r → readReg (driverSetReg r v s) q = readReg s q) ∧
    readFlags (driverSetReg r v s) = readFlags s ∧ readPc (driverSetReg r v s) = readPc s ∧
    (∀ b, readMem (driverSetReg r v s) b = readMem s b) ∧
    readReg s r = s.reg r ∧ readFlags s = s.flags ∧ readPc s = s.pc ∧ readMem s a = s.memRead a

/-- R57: `run()`, one step at a time. After a step that ends with `Normal` it goes on from the state the step leaves; every
other outcome is returned, with the state the step leaves: `Halted`, and each of the three errors. So it returns at the first
step whose outcome is not `Normal`, and stays returned however much longer one looks (decision D17). A service that never
answers leaves the run stuck (R86). That an error is a fault which carries its state is the model's (log entry 5), and so is
the record of the outcome in the state (log entry 3). -/
def Obligations.RunReturnsAtTheFirstOtherOutcome : Prop :=
  ∀ (k : Nat) (s t : State),
    runFor 0 s = .running s ∧
    (step s = .next t → t.outcome = .normal → runFor (k + 1) s = runFor k t) ∧
    (step s = .next t → t.outcome = .halted → runFor (k + 1) s = .returned t) ∧
    (step s = .fault (.decodeError t) → t.outcome = .decodeError ∧ runFor (k + 1) s = .returned t) ∧
    (step s = .fault (.addressSpaceViolation t) →
      t.outcome = .addressSpaceViolation ∧ runFor (k + 1) s = .returned t) ∧
    (step s = .fault (.trapUnregistered t) → t.outcome = .trapUnregistered ∧ runFor (k + 1) s = .returned t) ∧
    (step s = .fault (.trapNeverAnswers t) → runFor (k + 1) s = .stuck) ∧
    (runFor k s = .returned t → t.outcome ≠ .normal ∧ ∀ j, runFor (k + j) s = .returned t) ∧
    (runFor k s = .running t → ∀ j, runFor (k + j) s = runFor j t) ∧
    (runFor k s = .stuck → ∀ j, runFor (k + j) s = .stuck)

/-! ## The machine under a trap service -/

/-- R86: `step()` with the service as its argument is the model's step wherever no TRAP runs, and at a TRAP it has exactly
the results the service gives it, whatever is pending in the state (R86 is D10, log entry 17; the pending answers are log
entry 2). The opcode number is D1, the incremented pc D2, the top of memory D3. -/
def Obligations.ServiceIsAskedAtEveryTrap : Prop :=
  ∀ (svc : TrapService) (s : State) (r : Result),
    (s.pc = 0xFFFF#16 ∨ isTrap (decode (s.memRead s.pc)) = false → (StepUnder svc s r ↔ r = step s)) ∧
    ∀ vector, s.pc ≠ 0xFFFF#16 → decode (s.memRead s.pc) = .trap vector →
      (StepUnder svc s r ↔ TrapUnder svc vector (s.setPc (s.pc + 1)) r)

/-- Under every service that keeps the contract, every step keeps the invariant (R9, R14), in the state of an error too, and
uses up nothing: what is pending stays. It rests on D8 and D10 for the flags, on log entry 4 for the form of memory and on
log entry 2 for the pending answers. -/
def Obligations.ServicedStepKeepsTheInvariant : Prop :=
  ∀ svc : TrapService, svc.Lawful → ∀ (s t : State) (r : Result), s.Inv → StepUnder svc s r → stateLeft r = some t →
    t.Inv ∧ t.services = s.services

/-- R57, R86: a run under a service always stands somewhere, and every run of any length under a service that keeps the
contract is the model's run with some answers pending at its start: also a service that answers for ever. R86 is D10 (log
entry 17), R57 is D17 (log entry 21), the pending answers are log entry 2. -/
def Obligations.ServicedRunsAreRunsOfTheModel : Prop :=
  (∀ (svc : TrapService) (k : Nat) (s : State), ∃ r, RunUnder svc k s r) ∧
  ∀ svc : TrapService, svc.Lawful → ∀ (k : Nat) (s : State) (r : RunResult), s.Inv → s.services = [] →
    RunUnder svc k s r → ∃ p, runFor k (s.setServices p) = r

/-- The converse: every run of the model, its pending answers apart, is a run under the most permissive service, which keeps
the contract; but for a run that a service which never answers has left stuck. Decisions and log entries as for
ServicedRunsAreRunsOfTheModel. -/
def Obligations.RunsOfTheModelAreServicedRuns : Prop :=
  anyService.Lawful ∧
  ∀ (k : Nat) (s : State),
    (runFor k s ≠ .stuck → RunUnder anyService k (s.setServices []) ((runFor k s).setServices [])) ∧
    (runFor k s = .stuck →
      ∃ j t u, j < k ∧ runFor j s = .running t ∧ step t = .fault (.trapNeverAnswers u))
end

