-- ==== Sys2Proof/Laws/Decode.lean ====
section
/-! SUPPORT. The laws of the decoder's and the encoder's parts: register fields, sign extension, placed fields. -/

namespace Sys2Proof

@[simp] theorem Reg.ofBits_bits (r : Reg) : Reg.ofBits r.bits = r := by cases r <;> rfl

@[simp] theorem Reg.bits_ofBits (b : BitVec 3) : (Reg.ofBits b).bits = b := by
  revert b
  decide

/-- The sign-extender is the two's-complement reading of the field. -/
theorem sext_eq_toInt {k : Nat} (f : BitVec (k + 1)) : sext f = f.toInt := by
  have h : 2 ^ (k + 1) = 2 * 2 ^ k := by rw [Nat.pow_succ, Nat.mul_comm]
  unfold sext
  rw [BitVec.toInt_eq_toNat_cond, Nat.add_sub_cancel]
  by_cases hf : f.toNat < 2 ^ k
  · rw [if_pos hf, if_pos (by omega)]
  · rw [if_neg hf, if_neg (by omega)]
    push_cast
    rfl

/-- Bit `i` of a field is bit `p - 1 + i` of its word (R35). -/
theorem getLsbD_field (w : Word) (p k i : Nat) (hi : i < k) : (field w p k).getLsbD i = w.getLsbD (p - 1 + i) := by
  simp [field, hi]

/-- Bit `i` of a placed field is bit `i - (p - 1)` of the field. -/
theorem getLsbD_place {k : Nat} (p : Nat) (f : BitVec k) (i : Nat) (hi : i < 16) :
    (place p f).getLsbD i = (decide (p - 1 ≤ i) && f.getLsbD (i - (p - 1))) := by
  by_cases hp : p - 1 ≤ i
  · simp [place, hi, hp, Nat.not_lt.2 hp]
  · simp [place, hi, hp, Nat.lt_of_not_le hp]

theorem standardOpcodeMap_ofBits_bits (o : Opcode) : opcodeOfBits (opcodeBits o) = o := by cases o <;> rfl

theorem standardOpcodeMap_bits_ofBits (b : BitVec 4) : opcodeBits (opcodeOfBits b) = b := by
  revert b
  decide

/-- The standard assignment is one table. -/
theorem standardOpcodeMap_consistent : standardOpcodeMap.Consistent :=
  ⟨standardOpcodeMap_ofBits_bits, standardOpcodeMap_bits_ofBits⟩

end Sys2Proof
end

