-- ==== Sys2Proof/Laws/Memory.lean ====
section
/-! SUPPORT. The laws of the memory operations: what a word reads as after a write, and that the one form is kept. -/

namespace Sys2Proof.Machine

theorem Memory.readAt_nil (a : Nat) : Memory.readAt [] a = unlistedWord := rfl

theorem Memory.readAt_cons (k : Nat) (v : Word) (m : Memory) (a : Nat) :
    Memory.readAt ((k, v) :: m) a = if a = k then v else m.readAt a := rfl

/-- An address that no cell has reads as an unlisted one. -/
theorem Memory.readAt_of_not_listed {m : Memory} {a : Nat} (h : ∀ c ∈ m, c.1 ≠ a) : m.readAt a = unlistedWord := by
  induction m with
  | nil => rfl
  | cons c m ih =>
    obtain ⟨k, v⟩ := c
    have hk : k ≠ a := h (k, v) (by simp)
    rw [Memory.readAt_cons, if_neg (Ne.symm hk)]
    exact ih fun d hd => h d (by simp [hd])

theorem Memory.mem_removeAt {m : Memory} {a : Nat} {c : Cell} : c ∈ m.removeAt a ↔ c ∈ m ∧ c.1 ≠ a := by
  simp [Memory.removeAt]

theorem Memory.mem_insertCell {m : Memory} {c d : Cell} : d ∈ m.insertCell c ↔ d = c ∨ d ∈ m := by
  induction m with
  | nil => simp [Memory.insertCell]
  | cons e m ih =>
    unfold Memory.insertCell
    split <;> simp [ih, or_left_comm]

theorem Memory.readAt_removeAt (m : Memory) (a b : Nat) :
    (m.removeAt a).readAt b = if b = a then unlistedWord else m.readAt b := by
  split
  · subst b
    exact Memory.readAt_of_not_listed fun c hc => (Memory.mem_removeAt.1 hc).2
  · rename_i hb
    induction m with
    | nil => rfl
    | cons c m ih =>
      obtain ⟨k, v⟩ := c
      by_cases hk : k = a
      · subst k
        have : Memory.removeAt ((a, v) :: m) a = Memory.removeAt m a := by simp [Memory.removeAt]
        rw [this, ih, Memory.readAt_cons, if_neg hb]
      · have : Memory.removeAt ((k, v) :: m) a = (k, v) :: Memory.removeAt m a := by simp [Memory.removeAt, hk]
        rw [this, Memory.readAt_cons, Memory.readAt_cons, ih]

theorem Memory.readAt_insertCell {m : Memory} {c : Cell} (h : ∀ d ∈ m, d.1 ≠ c.1) (b : Nat) :
    (m.insertCell c).readAt b = if b = c.1 then c.2 else m.readAt b := by
  obtain ⟨k, v⟩ := c
  induction m with
  | nil => rfl
  | cons d m ih =>
    obtain ⟨j, u⟩ := d
    have hj : j ≠ k := h (j, u) (by simp)
    have hm : ∀ d ∈ m, d.1 ≠ k := fun d hd => h d (by simp [hd])
    unfold Memory.insertCell
    split
    · rfl
    · rw [Memory.readAt_cons, ih hm, Memory.readAt_cons]
      by_cases hb : b = j
      · subst b
        simp [hj]
      · simp [hb]

/-- Every address after a write: the one written reads as the word written, every other as before. -/
theorem Memory.readAt_writeAt (m : Memory) (a b : Nat) (v : Word) :
    (m.writeAt a v).readAt b = if b = a then v else m.readAt b := by
  unfold Memory.writeAt
  split
  · rename_i hv
    rw [Memory.readAt_removeAt, hv]
  · rw [Memory.readAt_insertCell fun d hd => (Memory.mem_removeAt.1 hd).2, Memory.readAt_removeAt]
    by_cases hb : b = a <;> simp [hb]

/-- The same for 16-bit addresses. -/
@[simp] theorem Memory.read_write (m : Memory) (a b v : Word) :
    (m.write a v).read b = if b = a then v else m.read b := by
  simp [Memory.read, Memory.write, Memory.readAt_writeAt, BitVec.toNat_inj]

theorem Memory.wf_nil : Memory.wf [] := by simp [Memory.wf]

theorem Memory.wf_removeAt {m : Memory} (h : m.wf) (a : Nat) : (m.removeAt a).wf :=
  ⟨h.1.filter _, fun c hc => h.2 c (Memory.mem_removeAt.1 hc).1⟩

theorem Memory.pairwise_insertCell {m : Memory} {c : Cell} (h : m.Pairwise (fun d e => d.1 < e.1))
    (hc : ∀ d ∈ m, d.1 ≠ c.1) : (m.insertCell c).Pairwise (fun d e => d.1 < e.1) := by
  induction m with
  | nil => simp [Memory.insertCell]
  | cons d m ih =>
    rw [List.pairwise_cons] at h
    have hd : d.1 ≠ c.1 := hc d (by simp)
    have hm : ∀ e ∈ m, e.1 ≠ c.1 := fun e he => hc e (by simp [he])
    unfold Memory.insertCell
    split
    · rename_i hlt
      refine List.pairwise_cons.2 ⟨?_, List.pairwise_cons.2 h⟩
      intro e he
      rcases List.mem_cons.1 he with rfl | he
      · exact hlt
      · exact Nat.lt_trans hlt (h.1 e he)
    · refine List.pairwise_cons.2 ⟨?_, ih h.2 hm⟩
      intro e he
      rcases Memory.mem_insertCell.1 he with rfl | he
      · omega
      · exact h.1 e he

/-- A write keeps the one form of memory. -/
theorem Memory.wf_writeAt {m : Memory} (h : m.wf) {a : Nat} (ha : a < Config.memWords) (v : Word) :
    (m.writeAt a v).wf := by
  unfold Memory.writeAt
  split
  · exact Memory.wf_removeAt h a
  · rename_i hv
    refine ⟨Memory.pairwise_insertCell (Memory.wf_removeAt h a).1 fun d hd => (Memory.mem_removeAt.1 hd).2, ?_⟩
    intro c hc
    rcases Memory.mem_insertCell.1 hc with rfl | hc
    · exact ⟨ha, hv⟩
    · exact (Memory.wf_removeAt h a).2 c hc

theorem Memory.wf_write {m : Memory} (h : m.wf) (a v : Word) : (m.write a v).wf :=
  Memory.wf_writeAt h (by simpa [Config.memWords] using a.isLt) v

end Sys2Proof.Machine
end

