-- ==== Sys2Proof/Laws/State.lean ====
section
/-! SUPPORT. One lemma per field per update of State, and the register file's read after write. -/

namespace Sys2Proof.Machine

@[simp] theorem Regs.get_set (g : Regs) (r q : Reg) (v : Word) :
    (g.set r v).get q = if q = r then v else g.get q := by
  cases r <;> cases q <;> rfl

/-- A register file is its eight registers. -/
theorem Regs.ext_get {g h : Regs} (H : ∀ r, g.get r = h.get r) : g = h := by
  obtain ⟨⟩ := g
  obtain ⟨⟩ := h
  simp only [Regs.mk.injEq]
  exact ⟨H .r0, H .r1, H .r2, H .r3, H .r4, H .r5, H .r6, H .r7⟩

section Reads
variable (s : State)

/-! ### `R[r] <- v` -/
@[simp] theorem State.reg_setReg (r q : Reg) (v : Word) : (s.setReg r v).reg q = if q = r then v else s.reg q :=
  Regs.get_set s.regs r q v
@[simp] theorem State.regs_setReg (r : Reg) (v : Word) : (s.setReg r v).regs = s.regs.set r v := rfl
@[simp] theorem State.mem_setReg (r : Reg) (v : Word) : (s.setReg r v).mem = s.mem := rfl
@[simp] theorem State.memRead_setReg (r : Reg) (v a : Word) : (s.setReg r v).memRead a = s.memRead a := rfl
@[simp] theorem State.pc_setReg (r : Reg) (v : Word) : (s.setReg r v).pc = s.pc := rfl
@[simp] theorem State.flags_setReg (r : Reg) (v : Word) : (s.setReg r v).flags = s.flags := rfl
@[simp] theorem State.services_setReg (r : Reg) (v : Word) : (s.setReg r v).services = s.services := rfl
@[simp] theorem State.outcome_setReg (r : Reg) (v : Word) : (s.setReg r v).outcome = s.outcome := rfl

/-! ### `MemWrite(a, v)` -/
@[simp] theorem State.memRead_memWrite (a v b : Word) :
    (s.memWrite a v).memRead b = if b = a then v else s.memRead b := Memory.read_write s.mem a b v
@[simp] theorem State.mem_memWrite (a v : Word) : (s.memWrite a v).mem = s.mem.write a v := rfl
@[simp] theorem State.reg_memWrite (a v : Word) (q : Reg) : (s.memWrite a v).reg q = s.reg q := rfl
@[simp] theorem State.regs_memWrite (a v : Word) : (s.memWrite a v).regs = s.regs := rfl
@[simp] theorem State.pc_memWrite (a v : Word) : (s.memWrite a v).pc = s.pc := rfl
@[simp] theorem State.flags_memWrite (a v : Word) : (s.memWrite a v).flags = s.flags := rfl
@[simp] theorem State.services_memWrite (a v : Word) : (s.memWrite a v).services = s.services := rfl
@[simp] theorem State.outcome_memWrite (a v : Word) : (s.memWrite a v).outcome = s.outcome := rfl

/-! ### `pc <- a` -/
@[simp] theorem State.pc_setPc (a : Word) : (s.setPc a).pc = a := rfl
@[simp] theorem State.mem_setPc (a : Word) : (s.setPc a).mem = s.mem := rfl
@[simp] theorem State.memRead_setPc (a b : Word) : (s.setPc a).memRead b = s.memRead b := rfl
@[simp] theorem State.reg_setPc (a : Word) (q : Reg) : (s.setPc a).reg q = s.reg q := rfl
@[simp] theorem State.regs_setPc (a : Word) : (s.setPc a).regs = s.regs := rfl
@[simp] theorem State.flags_setPc (a : Word) : (s.setPc a).flags = s.flags := rfl
@[simp] theorem State.services_setPc (a : Word) : (s.setPc a).services = s.services := rfl
@[simp] theorem State.outcome_setPc (a : Word) : (s.setPc a).outcome = s.outcome := rfl

/-! ### the flags -/
@[simp] theorem State.flags_setFlags (f : Flags) : (s.setFlags f).flags = f := rfl
@[simp] theorem State.mem_setFlags (f : Flags) : (s.setFlags f).mem = s.mem := rfl
@[simp] theorem State.memRead_setFlags (f : Flags) (b : Word) : (s.setFlags f).memRead b = s.memRead b := rfl
@[simp] theorem State.reg_setFlags (f : Flags) (q : Reg) : (s.setFlags f).reg q = s.reg q := rfl
@[simp] theorem State.regs_setFlags (f : Flags) : (s.setFlags f).regs = s.regs := rfl
@[simp] theorem State.pc_setFlags (f : Flags) : (s.setFlags f).pc = s.pc := rfl
@[simp] theorem State.services_setFlags (f : Flags) : (s.setFlags f).services = s.services := rfl
@[simp] theorem State.outcome_setFlags (f : Flags) : (s.setFlags f).outcome = s.outcome := rfl

/-- `setcc` is one update of the flags. -/
@[simp] theorem State.setcc_eq (v : Word) : s.setcc v = s.setFlags (flagsOf v) := rfl

/-! ### the model's own two fields -/
@[simp] theorem State.services_setServices (p : List (BitVec 8 × TrapAnswer)) : (s.setServices p).services = p := rfl
@[simp] theorem State.mem_setServices (p : List (BitVec 8 × TrapAnswer)) : (s.setServices p).mem = s.mem := rfl
@[simp] theorem State.memRead_setServices (p : List (BitVec 8 × TrapAnswer)) (b : Word) :
    (s.setServices p).memRead b = s.memRead b := rfl
@[simp] theorem State.reg_setServices (p : List (BitVec 8 × TrapAnswer)) (q : Reg) :
    (s.setServices p).reg q = s.reg q := rfl
@[simp] theorem State.regs_setServices (p : List (BitVec 8 × TrapAnswer)) : (s.setServices p).regs = s.regs := rfl
@[simp] theorem State.pc_setServices (p : List (BitVec 8 × TrapAnswer)) : (s.setServices p).pc = s.pc := rfl
@[simp] theorem State.flags_setServices (p : List (BitVec 8 × TrapAnswer)) : (s.setServices p).flags = s.flags := rfl
@[simp] theorem State.outcome_setServices (p : List (BitVec 8 × TrapAnswer)) :
    (s.setServices p).outcome = s.outcome := rfl

@[simp] theorem State.outcome_setOutcome (o : StepOutcome) : (s.setOutcome o).outcome = o := rfl
@[simp] theorem State.mem_setOutcome (o : StepOutcome) : (s.setOutcome o).mem = s.mem := rfl
@[simp] theorem State.memRead_setOutcome (o : StepOutcome) (b : Word) : (s.setOutcome o).memRead b = s.memRead b := rfl
@[simp] theorem State.reg_setOutcome (o : StepOutcome) (q : Reg) : (s.setOutcome o).reg q = s.reg q := rfl
@[simp] theorem State.regs_setOutcome (o : StepOutcome) : (s.setOutcome o).regs = s.regs := rfl
@[simp] theorem State.pc_setOutcome (o : StepOutcome) : (s.setOutcome o).pc = s.pc := rfl
@[simp] theorem State.flags_setOutcome (o : StepOutcome) : (s.setOutcome o).flags = s.flags := rfl
@[simp] theorem State.services_setOutcome (o : StepOutcome) : (s.setOutcome o).services = s.services := rfl

end Reads

end Sys2Proof.Machine
end

