-- ==== Sys2Proof/Laws/Ops.lean ====
section
/-! SUPPORT. One lemma per shared operation, saying everything it can do. -/

namespace Sys2Proof.Machine

/-! ## The address calculator -/

/-- `EA` gives an address exactly when it is the exact sum. -/
theorem ea_eq_some {b : Word} {o : Int} {a : Word} : ea b o = some a ↔ (a.toNat : Int) = b.toNat + o := by
  have ha := a.isLt
  unfold ea Config.lastAddress
  by_cases h : (b.toNat : Int) + o < 0 ∨ (b.toNat : Int) + o > 65535
  · simp only [h, if_true, false_iff, reduceCtorEq]
    omega
  · simp only [h, if_false, Option.some.injEq]
    have hb : ((bv16 ((b.toNat : Int) + o)).toNat : Int) = (b.toNat : Int) + o := by
      simp only [bv16, BitVec.toNat_ofInt]
      omega
    constructor
    · rintro rfl
      exact hb
    · intro h'
      apply BitVec.eq_of_toNat_eq
      omega

/-- `EA` refuses exactly the sums outside 0 to 65535. -/
theorem ea_eq_none {b : Word} {o : Int} : ea b o = none ↔ (b.toNat : Int) + o < 0 ∨ (b.toNat : Int) + o > 65535 := by
  unfold ea Config.lastAddress
  by_cases h : (b.toNat : Int) + o < 0 ∨ (b.toNat : Int) + o > 65535 <;> simp [h]

/-- The increment fails only at the top of memory. -/
theorem advancePc_top {s : State} (h : s.pc = 0xFFFF#16) : advancePc s = none := by
  have : ea s.pc 1 = none := ea_eq_none.2 (by rw [h]; decide)
  simp [advancePc, this]

/-- Elsewhere it is the next address. -/
theorem advancePc_below {s : State} (h : s.pc ≠ 0xFFFF#16) : advancePc s = some (s.setPc (s.pc + 1)) := by
  have h' : s.pc.toNat ≠ 65535 := fun e => h (BitVec.eq_of_toNat_eq e)
  have hlt := s.pc.isLt
  have : ea s.pc 1 = some (s.pc + 1) := ea_eq_some.2 (by rw [BitVec.toNat_add]; simp; omega)
  simp [advancePc, this]

/-! ## Flags -/

theorem flagsOf_match (v : Word) : FlagsMatch (flagsOf v) v := by simp [FlagsMatch, flagsOf]

theorem flagsOf_legal (v : Word) : (flagsOf v).legal = true := by
  by_cases h : v.toInt < 0
  · have : ¬ v.toInt = 0 := by omega
    have : ¬ v.toInt > 0 := by omega
    simp [Flags.legal, flagsOf, *]
  · by_cases h0 : v.toInt = 0 <;> simp [Flags.legal, flagsOf, h0]
    omega

theorem FlagState.flags_legal (f : FlagState) : f.flags.legal = true := by cases f <;> rfl

/-! ## How a step ends -/

/-- What a driver finds after each answer of a step. -/
@[simp] theorem stateLeft_next (t : State) : stateLeft (.next t) = some t := rfl
@[simp] theorem stateLeft_fault (f : Fault) : stateLeft (.fault f) = f.left := rfl

theorem returnNormal_eq (s : State) : returnNormal s = .next (s.setOutcome .normal) := rfl

/-- Raising never gives a next state. -/
theorem raise_ne_next (e : ErrorOutcome) (s t : State) : raise e s ≠ .next t := by cases e <;> simp [raise]

/-- Raising never refuses. -/
theorem raise_ne_refused (e : ErrorOutcome) (s : State) (r : Refusal) : raise e s ≠ .refused r := by
  cases e <;> simp [raise]

/-- Going on with an address either has one, or raises the violation with the state as it stands. -/
theorem withAddress_cases (a? : Option Word) (s : State) (k : Word → Result) :
    (∃ a, a? = some a ∧ withAddress a? s k = k a) ∨
      (a? = none ∧ withAddress a? s k = .fault (.addressSpaceViolation (s.setOutcome .addressSpaceViolation))) := by
  cases a? with
  | none => exact .inr ⟨rfl, rfl⟩
  | some a => exact .inl ⟨a, rfl, rfl⟩

/-- Writing a result ends normally; the result, the flags, and everything left alone. -/
theorem writeResult_spec (d : Reg) (v : Word) (s : State) :
    ∃ t, writeResult d v s = .next t ∧ WritesResult d v s t := by
  refine ⟨_, rfl, ?_⟩
  simp +contextual [WritesResult, SameRegsBut, SameMemory, flagsOf_match]

/-- The next state of a result. -/
theorem writeResult_next {d : Reg} {v : Word} {s t : State} (h : writeResult d v s = .next t) :
    t = ((s.setReg d v).setcc v).setOutcome .normal := by
  cases h
  rfl

/-- A store at an address ends normally; the stored word, and everything left alone. -/
theorem storeTo_spec (a : Word) (r : Reg) (s : State) :
    ∃ t, storeTo (some a) r s = .next t ∧ OnlyStores a (s.reg r) s t := by
  refine ⟨_, rfl, ?_⟩
  simp +contextual [OnlyStores, StoresWord, SameRegs]

/-- A load or a store without an address raises the violation and changes nothing. -/
theorem loadFrom_none (r : Reg) (s : State) :
    loadFrom none r s = .fault (.addressSpaceViolation (s.setOutcome .addressSpaceViolation)) := rfl

theorem storeTo_none (r : Reg) (s : State) :
    storeTo none r s = .fault (.addressSpaceViolation (s.setOutcome .addressSpaceViolation)) := rfl

theorem loadFrom_some (a : Word) (r : Reg) (s : State) : loadFrom (some a) r s = writeResult r (s.memRead a) s := rfl

/-- Reporting an outcome changes nothing else. -/
theorem setOutcome_onlyReports (o : StepOutcome) (s : State) : OnlyReports o s (s.setOutcome o) := by
  simp [OnlyReports]

/-! ## The trap service -/

theorem takeAnswer_nil (v : BitVec 8) : takeAnswer v [] = (.unregistered, []) := rfl

theorem takeAnswer_self (v : BitVec 8) (x : TrapAnswer) (p : List (BitVec 8 × TrapAnswer)) :
    takeAnswer v ((v, x) :: p) = (x, p) := by simp [takeAnswer]

theorem takeAnswer_other {u v : BitVec 8} (h : u ≠ v) (x : TrapAnswer) (p : List (BitVec 8 × TrapAnswer)) :
    takeAnswer v ((u, x) :: p) = ((takeAnswer v p).1, (u, x) :: (takeAnswer v p).2) := by simp [takeAnswer, h]

section Effects
variable (s : State)

/-- A list of register writes leaves everything but registers alone. -/
theorem State.setRegs_frame (ws : List (Reg × Word)) :
    (s.setRegs ws).mem = s.mem ∧ (s.setRegs ws).pc = s.pc ∧ (s.setRegs ws).flags = s.flags ∧
      (s.setRegs ws).services = s.services ∧ (s.setRegs ws).outcome = s.outcome := by
  induction ws generalizing s with
  | nil => simp [State.setRegs]
  | cons w ws ih => simpa [State.setRegs] using ih (s.setReg w.1 w.2)

/-- A list of memory writes leaves everything but memory alone. -/
theorem State.memWrites_frame (ws : List (Word × Word)) :
    (s.memWrites ws).regs = s.regs ∧ (s.memWrites ws).pc = s.pc ∧ (s.memWrites ws).flags = s.flags ∧
      (s.memWrites ws).services = s.services ∧ (s.memWrites ws).outcome = s.outcome := by
  induction ws generalizing s with
  | nil => simp [State.memWrites]
  | cons w ws ih => simpa [State.memWrites] using ih (s.memWrite w.1 w.2)

/-- A list of memory writes keeps the one form of memory. -/
theorem State.memWrites_wf {s : State} (h : s.mem.wf) (ws : List (Word × Word)) : (s.memWrites ws).mem.wf := by
  induction ws generalizing s with
  | nil => simpa [State.memWrites] using h
  | cons w ws ih => simpa [State.memWrites] using ih (s := s.memWrite w.1 w.2) (Memory.wf_write h _ _)

/-- Setting the flags leaves everything but the flags alone. -/
theorem State.setFlagState_frame (f : Option FlagState) :
    (s.setFlagState f).mem = s.mem ∧ (s.setFlagState f).regs = s.regs ∧ (s.setFlagState f).pc = s.pc ∧
      (s.setFlagState f).services = s.services ∧ (s.setFlagState f).outcome = s.outcome := by
  cases f <;> simp [State.setFlagState]

/-- A service leaves `pc` and the model's own two fields alone. -/
theorem State.afterService_frame (e : ServiceEffect) :
    (s.afterService e).pc = s.pc ∧ (s.afterService e).services = s.services ∧
      (s.afterService e).outcome = s.outcome := by
  simp [State.afterService, (State.setFlagState_frame _ _).2.2, (State.memWrites_frame _ _).2,
    (State.setRegs_frame _ _).2]

/-- A service keeps the one form of memory. -/
theorem State.afterService_wf {s : State} (h : s.mem.wf) (e : ServiceEffect) : (s.afterService e).mem.wf := by
  rw [State.afterService, (State.setFlagState_frame _ _).1]
  exact State.memWrites_wf (by rw [(State.setRegs_frame s e.regs).1]; exact h) _

/-- A service keeps the flags legal. -/
theorem State.afterService_legal {s : State} (h : s.flags.legal = true) (e : ServiceEffect) :
    (s.afterService e).flags.legal = true := by
  unfold State.afterService
  cases e.flags with
  | none => simpa [State.setFlagState, (State.memWrites_frame _ _).2.2.1, (State.setRegs_frame _ _).2.2.1] using h
  | some f => exact FlagState.flags_legal f

end Effects

end Sys2Proof.Machine
end

