-- ==== Sys2Proof/Laws/PerInstr.lean ====
section
/-! SUPPORT. The family OpcodeField, one lemma per constructor of Instr: under every opcode map, an instruction's word
carries in `w[15:12]` the opcode value of its dispatch target (R42), whatever its operands. -/

namespace Sys2Proof.Laws.OpcodeField

/-- The opcode field of the encoded word is the instruction's own. -/
def Statement (i : Instr) : Prop := ∀ m : OpcodeMap, field (encodeWith m i) 13 4 = m.bits i.opcode

/-- A placed field that ends at or below bit 11 leaves the opcode field clear. -/
theorem field_place_low {k : Nat} (p : Nat) (f : BitVec k) (h : p - 1 + k ≤ 12) : field (place p f) 13 4 = 0#4 := by
  apply BitVec.eq_of_getLsbD_eq
  intro i hi
  rw [getLsbD_field _ _ _ _ hi, getLsbD_place _ _ _ (by omega), BitVec.getLsbD_of_ge f _ (by omega)]
  simp

/-- The opcode field of a placed opcode is that opcode. -/
theorem field_place_opcode (b : BitVec 4) : field (place 13 b) 13 4 = b := by
  apply BitVec.eq_of_getLsbD_eq
  intro i hi
  rw [getLsbD_field _ _ _ _ hi, getLsbD_place _ _ _ (by omega)]
  simp

theorem field_or (v w : Word) (p k : Nat) : field (v ||| w) p k = field v p k ||| field w p k := by
  simp [field, BitVec.extractLsb'_or]

/-- An operand field that leaves bits 15 to 12 clear leaves the opcode alone. -/
theorem of_operandBits {i : Instr} (h : field i.operandBits 13 4 = 0#4) : Statement i := by
  intro m
  rw [encodeWith, field_or, field_place_opcode, h, BitVec.or_zero]

theorem br (n z p : Bool) (off9 : Int) : Statement (.br n z p off9) :=
  of_operandBits (by simp [Instr.operandBits, placeFlag, placeSigned, field_or, field_place_low])
theorem addReg (dst src1 src2 : Reg) : Statement (.addReg dst src1 src2) :=
  of_operandBits (by simp [Instr.operandBits, placeReg, field_or, field_place_low])
theorem addImm (dst src1 : Reg) (imm : Int) : Statement (.addImm dst src1 imm) :=
  of_operandBits (by simp [Instr.operandBits, placeReg, placeSigned, field_or, field_place_low])
theorem ld (reg : Reg) (off9 : Int) : Statement (.ld reg off9) :=
  of_operandBits (by simp [Instr.operandBits, placeReg, placeSigned, field_or, field_place_low])
theorem st (reg : Reg) (off9 : Int) : Statement (.st reg off9) :=
  of_operandBits (by simp [Instr.operandBits, placeReg, placeSigned, field_or, field_place_low])
theorem andReg (dst src1 src2 : Reg) : Statement (.andReg dst src1 src2) :=
  of_operandBits (by simp [Instr.operandBits, placeReg, field_or, field_place_low])
theorem andImm (dst src1 : Reg) (imm : Int) : Statement (.andImm dst src1 imm) :=
  of_operandBits (by simp [Instr.operandBits, placeReg, placeSigned, field_or, field_place_low])
theorem ldr (reg base : Reg) (off6 : Int) : Statement (.ldr reg base off6) :=
  of_operandBits (by simp [Instr.operandBits, placeReg, placeSigned, field_or, field_place_low])
theorem str (reg base : Reg) (off6 : Int) : Statement (.str reg base off6) :=
  of_operandBits (by simp [Instr.operandBits, placeReg, placeSigned, field_or, field_place_low])
theorem notReg (dst src1 : Reg) : Statement (.notReg dst src1) :=
  of_operandBits (by simp [Instr.operandBits, placeReg, field_or, field_place_low])
theorem ldi (reg : Reg) (off9 : Int) : Statement (.ldi reg off9) :=
  of_operandBits (by simp [Instr.operandBits, placeReg, placeSigned, field_or, field_place_low])
theorem sti (reg : Reg) (off9 : Int) : Statement (.sti reg off9) :=
  of_operandBits (by simp [Instr.operandBits, placeReg, placeSigned, field_or, field_place_low])
theorem jmp (base : Reg) : Statement (.jmp base) :=
  of_operandBits (by simp [Instr.operandBits, placeReg, field_place_low])
theorem lea (reg : Reg) (off9 : Int) : Statement (.lea reg off9) :=
  of_operandBits (by simp [Instr.operandBits, placeReg, placeSigned, field_or, field_place_low])
theorem trap (vector : BitVec 8) : Statement (.trap vector) :=
  of_operandBits (by simp [Instr.operandBits, field_place_low])
theorem undefined0100 : Statement .undefined0100 := of_operandBits rfl
theorem undefined1000 : Statement .undefined1000 := of_operandBits rfl
theorem undefined1101 : Statement .undefined1101 := of_operandBits rfl

end Sys2Proof.Laws.OpcodeField
end

