-- ==== Sys2Proof/Laws/Step.lean ====
section
/-! SUPPORT. What one instruction, and one step, can do: each case once, for every later proof to cite. -/

namespace Sys2Proof.Machine

/-- What an instruction that completes has done. -/
inductive Done (i : Instr) (s : State) : State → Prop where
  /-- A result written to its register, with the flags set from it. -/
  | result (d : Reg) (v : Word) (h : resultReg i = some d) (hs : storeTarget i s = none) :
      Done i s (((s.setReg d v).setcc v).setOutcome .normal)
  /-- One word stored. -/
  | store (a : Word) (r : Reg) (h : storeTarget i s = some (a, r)) (hd : resultReg i = none) :
      Done i s ((s.memWrite a (s.reg r)).setOutcome .normal)
  /-- A branch not taken. -/
  | stay (n z p : Bool) (off9 : Int) (h : i = .br n z p off9) (hb : branchTaken n z p s.flags = false) :
      Done i s (s.setOutcome .normal)
  /-- A branch taken. -/
  | branch (n z p : Bool) (off9 : Int) (a : Word) (h : i = .br n z p off9) (hb : branchTaken n z p s.flags = true)
      (ha : (a.toNat : Int) = s.pc.toNat + off9) : Done i s ((s.setPc a).setOutcome .normal)
  /-- A jump. -/
  | jump (base : Reg) (h : i = .jmp base) : Done i s ((s.setPc (s.reg base)).setOutcome .normal)
  /-- A TRAP whose service signalled termination. -/
  | halt (v : BitVec 8) (e : ServiceEffect) (p : List (BitVec 8 × TrapAnswer)) (h : i = .trap v)
      (ht : takeAnswer v s.services = (.halt e, p)) :
      Done i s ((((s.setReg .r7 s.pc).setServices p).afterService e).setOutcome .halted)
  /-- A TRAP whose service named an address to resume at. -/
  | resume (v : BitVec 8) (e : ServiceEffect) (a : Word) (p : List (BitVec 8 × TrapAnswer)) (h : i = .trap v)
      (ht : takeAnswer v s.services = (.resume e a, p)) :
      Done i s (((((s.setReg .r7 s.pc).setServices p).afterService e).setPc a).setOutcome .normal)

/-- Why an instruction did not complete, and the state it leaves. -/
inductive Failed (i : Instr) (s : State) : Fault → Prop where
  | undefined (h : isUndefined i = true) : Failed i s (.decodeError (s.setOutcome .decodeError))
  | violation (x : Int) (h : addressSum i s = some x) (hx : x < 0 ∨ x > 65535) :
      Failed i s (.addressSpaceViolation (s.setOutcome .addressSpaceViolation))
  | unregistered (v : BitVec 8) (p : List (BitVec 8 × TrapAnswer)) (h : i = .trap v)
      (ht : takeAnswer v s.services = (.unregistered, p)) :
      Failed i s (.trapUnregistered (((s.setReg .r7 s.pc).setServices p).setOutcome .trapUnregistered))
  | never (v : BitVec 8) (p : List (BitVec 8 × TrapAnswer)) (h : i = .trap v)
      (ht : takeAnswer v s.services = (.never, p)) :
      Failed i s (.trapNeverAnswers ((s.setReg .r7 s.pc).setServices p))

/-- BR's condition as R73's formula. -/
theorem branchTaken_iff (n z p : Bool) (f : Flags) :
    branchTaken n z p f = true ↔ (n = true ∧ f.n = true) ∨ (z = true ∧ f.z = true) ∨ (p = true ∧ f.p = true) := by
  simp [branchTaken, or_assoc]

/-- The exact sum of a branch is formed only when it is taken. -/
theorem addressSum_br (n z p : Bool) (off9 : Int) (s : State) :
    addressSum (.br n z p off9) s =
      if branchTaken n z p s.flags = true then some ((s.pc.toNat : Int) + off9) else none := by
  simp only [addressSum, branchTaken_iff]

section Family
variable {i : Instr} {s : State} {r : Reg} {o : Option Word}

/-- What a load can do. -/
theorem loadFrom_cases {x : Int} (hr : resultReg i = some r) (hs : storeTarget i s = none)
    (hx : addressSum i s = some x) (hn : o = none → x < 0 ∨ x > 65535) :
    (∃ t, loadFrom o r s = .next t ∧ Done i s t) ∨ ∃ f, loadFrom o r s = .fault f ∧ Failed i s f := by
  cases o with
  | none => exact .inr ⟨_, rfl, .violation x hx (hn rfl)⟩
  | some a => exact .inl ⟨_, rfl, .result r (s.memRead a) hr hs⟩

/-- What a store can do. -/
theorem storeTo_cases {x : Int} (hr : resultReg i = none) (hs : ∀ a, o = some a → storeTarget i s = some (a, r))
    (hx : addressSum i s = some x) (hn : o = none → x < 0 ∨ x > 65535) :
    (∃ t, storeTo o r s = .next t ∧ Done i s t) ∨ ∃ f, storeTo o r s = .fault f ∧ Failed i s f := by
  cases o with
  | none => exact .inr ⟨_, rfl, .violation x hx (hn rfl)⟩
  | some a => exact .inl ⟨_, rfl, .store a r (hs a rfl) hr⟩

end Family

theorem indirect_none {off9 : Int} {s : State} (h : indirect off9 s = none) : pcRelative off9 s = none := by
  simpa [indirect] using h

/-- An instruction completes in one of the ways of `Done`, or fails in one of the ways of `Failed`. -/
theorem exec_cases (i : Instr) (s : State) :
    (∃ t, exec i s = .next t ∧ Done i s t) ∨ ∃ f, exec i s = .fault f ∧ Failed i s f := by
  cases i with
  | br n z p off9 =>
    show (∃ t, execBr n z p off9 s = _ ∧ _) ∨ ∃ f, execBr n z p off9 s = _ ∧ _
    unfold execBr
    cases hb : branchTaken n z p s.flags with
    | false => exact .inl ⟨_, rfl, .stay n z p off9 rfl hb⟩
    | true =>
      have hx : addressSum (.br n z p off9) s = some ((s.pc.toNat : Int) + off9) := by rw [addressSum_br, hb, if_pos rfl]
      cases ha : pcRelative off9 s with
      | none => exact .inr ⟨_, rfl, .violation _ hx (ea_eq_none.1 ha)⟩
      | some a => exact .inl ⟨_, rfl, .branch n z p off9 a rfl hb (ea_eq_some.1 ha)⟩
  | addReg dst src1 src2 => exact .inl ⟨_, rfl, .result dst _ rfl rfl⟩
  | addImm dst src1 imm => exact .inl ⟨_, rfl, .result dst _ rfl rfl⟩
  | andReg dst src1 src2 => exact .inl ⟨_, rfl, .result dst _ rfl rfl⟩
  | andImm dst src1 imm => exact .inl ⟨_, rfl, .result dst _ rfl rfl⟩
  | notReg dst src1 => exact .inl ⟨_, rfl, .result dst _ rfl rfl⟩
  | ld reg off9 => exact loadFrom_cases rfl rfl rfl ea_eq_none.1
  | ldi reg off9 => exact loadFrom_cases rfl rfl rfl fun h => ea_eq_none.1 (indirect_none h)
  | ldr reg base off6 => exact loadFrom_cases rfl rfl rfl ea_eq_none.1
  | st reg off9 => exact storeTo_cases rfl (fun a h => by simp [storeTarget, h]) rfl ea_eq_none.1
  | sti reg off9 =>
    exact storeTo_cases rfl (fun a h => by simp [storeTarget, h]) rfl fun h => ea_eq_none.1 (indirect_none h)
  | str reg base off6 => exact storeTo_cases rfl (fun a h => by simp [storeTarget, h]) rfl ea_eq_none.1
  | lea reg off9 =>
    show (∃ t, execLea reg off9 s = _ ∧ _) ∨ ∃ f, execLea reg off9 s = _ ∧ _
    unfold execLea
    cases ha : pcRelative off9 s with
    | none => exact .inr ⟨_, rfl, .violation _ rfl (ea_eq_none.1 ha)⟩
    | some a => exact .inl ⟨_, rfl, .result reg a rfl rfl⟩
  | jmp base => exact .inl ⟨_, rfl, .jump base rfl⟩
  | trap v =>
    show (∃ t, execTrap v s = _ ∧ _) ∨ ∃ f, execTrap v s = _ ∧ _
    have hs : (trapEntry s).services = s.services := rfl
    unfold execTrap invokeTrap
    rw [hs]
    rcases h : takeAnswer v s.services with ⟨x, p⟩
    cases x with
    | unregistered => exact .inr ⟨_, rfl, .unregistered v p rfl h⟩
    | halt e => exact .inl ⟨_, rfl, .halt v e p rfl h⟩
    | resume e a => exact .inl ⟨_, rfl, .resume v e a p rfl h⟩
    | never => exact .inr ⟨_, rfl, .never v p rfl h⟩
  | undefined0100 => exact .inr ⟨_, rfl, .undefined rfl⟩
  | undefined1000 => exact .inr ⟨_, rfl, .undefined rfl⟩
  | undefined1101 => exact .inr ⟨_, rfl, .undefined rfl⟩

theorem exec_next {i : Instr} {s t : State} (h : exec i s = .next t) : Done i s t := by
  rcases exec_cases i s with ⟨u, hu, hd⟩ | ⟨f, hf, -⟩
  · rw [h] at hu
    cases hu
    exact hd
  · rw [h] at hf
    cases hf

theorem exec_fault {i : Instr} {s : State} {f : Fault} (h : exec i s = .fault f) : Failed i s f := by
  rcases exec_cases i s with ⟨t, ht, -⟩ | ⟨g, hg, hd⟩
  · rw [h] at ht
    cases ht
  · rw [h] at hg
    cases hg
    exact hd

/-- No instruction is refused. -/
theorem exec_ne_refused (i : Instr) (s : State) (r : Refusal) : exec i s ≠ .refused r := by
  rcases exec_cases i s with ⟨t, ht, -⟩ | ⟨f, hf, -⟩ <;> simp [*]

end Sys2Proof.Machine
end

