-- ==== Sys2Proof/Laws/Serviced.lean ====
section
/-! SUPPORT. What an instruction can do under a trap service, and that pending answers matter to TRAP alone. -/

namespace Sys2Proof.Machine

theorem isTrap_iff {i : Instr} : isTrap i = true ↔ ∃ vector, i = .trap vector := by
  cases i <;> simp [isTrap, Instr.opcode]

/-- Under a service, an instruction that is no TRAP has its one meaning. -/
theorem execUnder_of_not_trap {svc : TrapService} {i : Instr} (h : isTrap i = false) (s : State) (r : Result) :
    ExecUnder svc i s r ↔ r = exec i s := by
  constructor
  · rintro (⟨v, rfl, -⟩ | ⟨-, h⟩)
    · cases h
    · exact h
  · exact fun e => .inr ⟨by simpa [isTrap] using h, e⟩

/-- Under a service, a TRAP has the service's results. -/
theorem execUnder_trap (svc : TrapService) (vector : BitVec 8) (s : State) (r : Result) :
    ExecUnder svc (.trap vector) s r ↔ TrapUnder svc vector s r := by
  constructor
  · rintro (⟨w, h, hu⟩ | ⟨h, -⟩)
    · cases h
      exact hu
    · exact absurd rfl h
  · exact fun e => .inl ⟨vector, rfl, e⟩

section Pending
variable (p : List (BitVec 8 × TrapAnswer))

theorem State.setRegs_setServices (ws : List (Reg × Word)) :
    ∀ s : State, (s.setServices p).setRegs ws = (s.setRegs ws).setServices p := by
  induction ws with
  | nil => exact fun _ => rfl
  | cons w ws ih => exact fun s => ih (s.setReg w.1 w.2)

theorem State.memWrites_setServices (ws : List (Word × Word)) :
    ∀ s : State, (s.setServices p).memWrites ws = (s.memWrites ws).setServices p := by
  induction ws with
  | nil => exact fun _ => rfl
  | cons w ws ih => exact fun s => ih (s.memWrite w.1 w.2)

/-- What a service changes does not depend on what is pending. -/
theorem State.afterService_setServices (s : State) (e : ServiceEffect) :
    (s.setServices p).afterService e = (s.afterService e).setServices p := by
  rw [State.afterService, State.setRegs_setServices, State.memWrites_setServices, State.afterService]
  cases e.flags <;> rfl

theorem withAddress_setServices (a? : Option Word) (s : State) {k l : Word → Result}
    (h : ∀ a, stateLeft (l a) = (stateLeft (k a)).map fun t => t.setServices p) :
    stateLeft (withAddress a? (s.setServices p) l) = (stateLeft (withAddress a? s k)).map fun t => t.setServices p := by
  cases a? with
  | none => rfl
  | some a => exact h a

/-- An instruction that is no TRAP leaves the same state whatever is pending, and leaves what is pending. -/
theorem stateLeft_exec_setServices {i : Instr} (h : isTrap i = false) (s : State) :
    stateLeft (exec i (s.setServices p)) = (stateLeft (exec i s)).map fun t => t.setServices p := by
  cases i with
  | br n z q off9 =>
    show stateLeft (if branchTaken n z q s.flags = true then _ else _) =
      (stateLeft (if branchTaken n z q s.flags = true then _ else _)).map _
    split
    · exact withAddress_setServices p _ s fun _ => rfl
    · rfl
  | ld => exact withAddress_setServices p _ s fun _ => rfl
  | st => exact withAddress_setServices p _ s fun _ => rfl
  | ldi => exact withAddress_setServices p _ s fun _ => rfl
  | sti => exact withAddress_setServices p _ s fun _ => rfl
  | ldr => exact withAddress_setServices p _ s fun _ => rfl
  | str => exact withAddress_setServices p _ s fun _ => rfl
  | lea => exact withAddress_setServices p _ s fun _ => rfl
  | trap => cases h
  | addReg => rfl
  | addImm => rfl
  | andReg => rfl
  | andImm => rfl
  | notReg => rfl
  | jmp => rfl
  | undefined0100 => rfl
  | undefined1000 => rfl
  | undefined1101 => rfl

end Pending

end Sys2Proof.Machine
end

