-- ==== Sys2Proof/Tests/Slice0.lean ====
section
/-! SUPPORT. Tests: the well-formedness smoke, a word of each constructor decoded, at most two single steps an
instruction, and for each statement with hypotheses a state and operands that meet them.

Expected results are the spec's: the words are written from the layouts of spec/30_encoding.md (opcode digits by decision
D1), the steps are rows of spec/95_test_vectors.md, named by its table. -/

namespace Sys2Proof.Tests
open Sys2Proof Sys2Proof.Machine

/-! ## Well-formedness -/

theorem test_wf_refuses_imm5 :
    (Instr.addImm .r0 .r1 16).wf = false ∧ (Instr.addImm .r0 .r1 (-17)).wf = false ∧
    (Instr.andImm .r0 .r1 16).wf = false ∧ (Instr.andImm .r0 .r1 (-17)).wf = false := by decide

theorem test_wf_refuses_offset6 :
    (Instr.ldr .r0 .r1 32).wf = false ∧ (Instr.ldr .r0 .r1 (-33)).wf = false ∧
    (Instr.str .r0 .r1 32).wf = false ∧ (Instr.str .r0 .r1 (-33)).wf = false := by decide

theorem test_wf_refuses_pcoffset9 :
    (Instr.br true true true 256).wf = false ∧ (Instr.br true true true (-257)).wf = false ∧
    (Instr.ld .r0 256).wf = false ∧ (Instr.st .r0 (-257)).wf = false ∧ (Instr.ldi .r0 256).wf = false ∧
    (Instr.sti .r0 (-257)).wf = false ∧ (Instr.lea .r0 256).wf = false := by decide

theorem test_wf_accepts_the_bounds :
    (Instr.addImm .r0 .r1 15).wf = true ∧ (Instr.andImm .r0 .r1 (-16)).wf = true ∧ (Instr.ldr .r0 .r1 31).wf = true ∧
    (Instr.str .r0 .r1 (-32)).wf = true ∧ (Instr.ld .r0 255).wf = true ∧ (Instr.lea .r0 (-256)).wf = true := by decide

/-! ## Decoding: opcode, then the fields of the layout -/

theorem test_decode_br : decode 0b0000100111111110#16 = .br true false false (-2) := by decide
theorem test_decode_addReg : decode 0b0001010000011001#16 = .addReg .r2 .r0 .r1 := by decide
theorem test_decode_addImm : decode 0b0001000001110001#16 = .addImm .r0 .r1 (-15) := by decide
theorem test_decode_ld : decode 0b0010001000000101#16 = .ld .r1 5 := by decide
theorem test_decode_st : decode 0b0011011100000000#16 = .st .r3 (-256) := by decide
theorem test_decode_andReg : decode 0b0101010000000001#16 = .andReg .r2 .r0 .r1 := by decide
theorem test_decode_andImm : decode 0b0101011100110000#16 = .andImm .r3 .r4 (-16) := by decide
theorem test_decode_ldr : decode 0b0110011110100000#16 = .ldr .r3 .r6 (-32) := by decide
theorem test_decode_str : decode 0b0111000001011111#16 = .str .r0 .r1 31 := by decide
theorem test_decode_not : decode 0b1001001000000001#16 = .notReg .r1 .r0 := by decide
theorem test_decode_ldi : decode 0b1010100000000011#16 = .ldi .r4 3 := by decide
theorem test_decode_sti : decode 0b1011001011111111#16 = .sti .r1 255 := by decide
theorem test_decode_jmp : decode 0b1100000111000000#16 = .jmp .r7 := by decide
theorem test_decode_lea : decode 0b1110001111111110#16 = .lea .r1 (-2) := by decide
theorem test_decode_trap : decode 0b1111000000100101#16 = .trap 0x25#8 := by decide
theorem test_decode_undefined0100 : decode 0b0100111111111111#16 = .undefined0100 := by decide
theorem test_decode_undefined1000 : decode 0b1000111111111111#16 = .undefined1000 := by decide
theorem test_decode_undefined1101 : decode 0b1101111111111111#16 = .undefined1101 := by decide

/-- The words R48's notation and R45's canonical bits give. -/
theorem test_encode_canonical :
    encode (.notReg .r1 .r0) = 0x923F#16 ∧ encode (.jmp .r3) = 0xC0C0#16 ∧ encode (.trap 0x25#8) = 0xF025#16 ∧
    encode (.addReg .r2 .r0 .r1) = 0x1401#16 := by decide

/-- The opcode table numbers bits from the least significant; no instruction has more than 16 (R34). -/
theorem test_decodeTableWord :
    decodeTableWord 16 0x1065 = some (.addImm .r0 .r1 5) ∧ decodeTableWord 32 0x1065 = none := by decide

/-! ## Single steps -/

/-- Reset, a word at `a0`, `pc` there, and flags. -/
def start (a0 w : Word) (f : FlagState) : State := ((State.reset.memWrite a0 w).setPc a0).setFlags f.flags

/-- The outcome, `pc`, one register and the flags after one step. -/
def after (r : Reg) (s : State) : Option (StepOutcome × Word × Word × Flags) :=
  (driverStep s).map fun t => (t.outcome, t.pc, t.reg r, t.flags)

/-- The outcome, `pc`, one word of memory and the flags after one step. -/
def afterAt (a : Word) (s : State) : Option (StepOutcome × Word × Word × Flags) :=
  (driverStep s).map fun t => (t.outcome, t.pc, t.memRead a, t.flags)

/-- V1: 7FFF + 0001. -/
theorem test_addReg_overflows_silently :
    after .r2 (((start 0x3000 0x1401 .positive).setReg .r0 0x7FFF).setReg .r1 0x0001) =
      some (.normal, 0x3001, 0x8000, FlagState.negative.flags) := by decide

/-- V1: the source is also the destination. -/
theorem test_addReg_doubles :
    after .r1 ((start 0x3000 0x1241 .positive).setReg .r1 0x4000) =
      some (.normal, 0x3001, 0x8000, FlagState.negative.flags) := by decide

/-- V1, S2: the immediate 10001 is -15. -/
theorem test_addImm_signExtends :
    after .r0 ((start 0x3000 0x1071 .positive).setReg .r1 0x000A) =
      some (.normal, 0x3001, 0xFFFB, FlagState.negative.flags) := by decide

/-- V1. -/
theorem test_addImm_reaches_zero :
    after .r3 ((start 0x3000 0x16FF .positive).setReg .r3 0x0001) =
      some (.normal, 0x3001, 0x0000, FlagState.zero.flags) := by decide

/-- V1. -/
theorem test_andReg :
    after .r2 (((start 0x3000 0x5401 .positive).setReg .r0 0xF0F0).setReg .r1 0xFF00) =
      some (.normal, 0x3001, 0xF000, FlagState.negative.flags) := by decide

/-- V1: the mask is sign-extended. -/
theorem test_andImm_signExtends :
    after .r3 ((start 0x3000 0x5731 .positive).setReg .r4 0xABCD) =
      some (.normal, 0x3001, 0xABC1, FlagState.negative.flags) := by decide

/-- V1: the low six bits are ignored. -/
theorem test_not_ignores_low_bits :
    after .r1 ((start 0x3000 0x9201 .positive).setReg .r0 0x00FF) =
      some (.normal, 0x3001, 0xFF00, FlagState.negative.flags) := by decide

/-- V1. -/
theorem test_not_of_ones :
    after .r1 ((start 0x3000 0x923F .positive).setReg .r0 0xFFFF) =
      some (.normal, 0x3001, 0x0000, FlagState.zero.flags) := by decide

/-- V2: the offset counts from the incremented pc. -/
theorem test_ld :
    after .r1 ((start 0x3000 0x2205 .positive).memWrite 0x3006 0x8001) =
      some (.normal, 0x3001, 0x8001, FlagState.negative.flags) := by decide

/-- V2: 65535 + 1. -/
theorem test_ld_violates :
    after .r0 ((start 0xFFFE 0x2001 .positive).setReg .r0 0x5555) =
      some (.addressSpaceViolation, 0xFFFF, 0x5555, FlagState.positive.flags) := by decide

/-- V2: a store of a negative value leaves Z set. -/
theorem test_st :
    afterAt 0x3003 ((start 0x3000 0x3602 .zero).setReg .r3 0xFFFF) =
      some (.normal, 0x3001, 0xFFFF, FlagState.zero.flags) := by decide

/-- V2: the store overwrites its own word. -/
theorem test_st_over_itself :
    afterAt 0x3000 ((start 0x3000 0x31FF .positive).setReg .r0 0x1234) =
      some (.normal, 0x3001, 0x1234, FlagState.positive.flags) := by decide

/-- V3: the pointer FFFF is read unsigned. -/
theorem test_ldi_top :
    after .r4 (((start 0x3000 0xA803 .positive).memWrite 0x3004 0xFFFF).memWrite 0xFFFF 0x8000) =
      some (.normal, 0x3001, 0x8000, FlagState.negative.flags) := by decide

/-- V3: 2 - 3 = -1. -/
theorem test_ldi_violates :
    after .r0 ((start 0x0001 0xA1FD .positive).setReg .r0 0x5555) =
      some (.addressSpaceViolation, 0x0002, 0x5555, FlagState.positive.flags) := by decide

/-- V3. -/
theorem test_sti :
    afterAt 0x4000 (((start 0x3000 0xB803 .positive).setReg .r4 0xBEEF).memWrite 0x3004 0x4000) =
      some (.normal, 0x3001, 0xBEEF, FlagState.positive.flags) := by decide

/-- V3: FF81 + FF. -/
theorem test_sti_violates :
    after .r1 ((start 0xFF80 0xB2FF .positive).setReg .r1 0x1111) =
      some (.addressSpaceViolation, 0xFF81, 0x1111, FlagState.positive.flags) := by decide

/-- V4: the base is also the destination. -/
theorem test_ldr_through_itself :
    after .r2 (((start 0x3000 0x6480 .positive).setReg .r2 0x4000).memWrite 0x4000 0x9000) =
      some (.normal, 0x3001, 0x9000, FlagState.negative.flags) := by decide

/-- V4: the base 8000 is read unsigned. -/
theorem test_ldr_upper_half :
    after .r0 (((start 0x3000 0x607F .positive).setReg .r1 0x8000).memWrite 0x7FFF 0x0001) =
      some (.normal, 0x3001, 0x0001, FlagState.positive.flags) := by decide

/-- V4. -/
theorem test_str :
    afterAt 0x4000 (((start 0x3000 0x77BF .positive).setReg .r6 0x4001).setReg .r3 0x1234) =
      some (.normal, 0x3001, 0x1234, FlagState.positive.flags) := by decide

/-- V4: FFE1 + 1F. -/
theorem test_str_violates :
    afterAt 0xFFFF (((start 0x3000 0x705F .positive).setReg .r1 0xFFE1).setReg .r0 0xAAAA) =
      some (.addressSpaceViolation, 0x3001, 0x0000, FlagState.positive.flags) := by decide

/-- V5: the flags come from the address, not from the word DEAD there. -/
theorem test_lea_reads_nothing :
    after .r1 ((start 0x3000 0xE3FE .zero).memWrite 0x2FFF 0xDEAD) =
      some (.normal, 0x3001, 0x2FFF, FlagState.positive.flags) := by decide

/-- V5: an address in the upper half sets N. -/
theorem test_lea_upper_half :
    after .r0 (start 0x8000 0xE010 .positive) = some (.normal, 0x8001, 0x8011, FlagState.negative.flags) := by decide

/-- V6, S7: with Z set, BRn does not move and BRz does. -/
theorem test_br_gates_on_flags :
    after .r0 (start 0x3000 0x0804 .zero) = some (.normal, 0x3001, 0x0000, FlagState.zero.flags) ∧
    after .r0 (start 0x3000 0x0404 .zero) = some (.normal, 0x3005, 0x0000, FlagState.zero.flags) := by decide

/-- V6: the same target out of range, taken and not taken. -/
theorem test_br_checks_only_when_taken :
    after .r0 (start 0x0000 0x0FFE .positive) =
      some (.addressSpaceViolation, 0x0001, 0x0000, FlagState.positive.flags) ∧
    after .r0 (start 0x0000 0x09FE .positive) = some (.normal, 0x0001, 0x0000, FlagState.positive.flags) := by decide

/-- V7: the ignored bits add no offset. -/
theorem test_jmp :
    after .r3 ((start 0x3000 0xCEFF .positive).setReg .r3 0x4000) =
      some (.normal, 0x4000, 0x4000, FlagState.positive.flags) := by decide

/-- V7: vector 23 with a service that puts 0041 in R0, sets P and resumes at 3006; R7 holds 3006. -/
theorem test_trap_resumes :
    after .r0 ((start 0x3005 0xF023 .zero).setServices
        [(0x23#8, .resume { regs := [(.r0, 0x0041)], mem := [], flags := some .positive } 0x3006)]) =
      some (.normal, 0x3006, 0x0041, FlagState.positive.flags) ∧
    after .r7 ((start 0x3005 0xF023 .zero).setServices
        [(0x23#8, .resume { regs := [(.r0, 0x0041)], mem := [], flags := some .positive } 0x3006)]) =
      some (.normal, 0x3006, 0x3006, FlagState.positive.flags) := by decide

/-- V7: `TRAP x25` under SVC_MIN halts; `TRAP x21` is unregistered, with R7 already written. -/
theorem test_trap_halts_or_is_unregistered :
    after .r7 ((start 0x3005 0xFF25 .positive).setServices [(0x25#8, .halt { regs := [], mem := [], flags := none })]) =
      some (.halted, 0x3006, 0x3006, FlagState.positive.flags) ∧
    after .r7 ((start 0x3005 0xF021 .positive).setServices [(0x25#8, .halt { regs := [], mem := [], flags := none })]) =
      some (.trapUnregistered, 0x3006, 0x3006, FlagState.positive.flags) := by decide

/-- V9. -/
theorem test_undefined_opcodes :
    after .r0 (start 0x3000 0x4FFF .positive) = some (.decodeError, 0x3001, 0x0000, FlagState.positive.flags) ∧
    after .r0 (start 0x3000 0x8000 .positive) = some (.decodeError, 0x3001, 0x0000, FlagState.positive.flags) ∧
    after .r0 (start 0x3000 0xD000 .positive) = some (.decodeError, 0x3001, 0x0000, FlagState.positive.flags) := by decide

/-- V9: nothing runs at FFFF, be it an ADD or an undefined word. -/
theorem test_top_of_memory :
    after .r0 (start 0xFFFF 0x1021 .positive) =
      some (.addressSpaceViolation, 0xFFFF, 0x0000, FlagState.positive.flags) ∧
    after .r0 (start 0xFFFF 0xD000 .positive) =
      some (.addressSpaceViolation, 0xFFFF, 0x0000, FlagState.positive.flags) := by decide

/-- V10: a block that ends at FFFF loads; one word more fails and writes nothing. -/
theorem test_load_at_the_top :
    (load 0xFFFE [1, 2] State.reset).1 = .ok ∧ (load 0xFFFE [1, 2] State.reset).2.memRead 0xFFFF = 2 ∧
    load 0xFFFE [1, 2, 3] State.reset = (.failed, State.reset) := by decide

/-- Writing what an unlisted word reads as takes its cell out. -/
theorem test_memory_one_form : (start 0x3000 0x1065 .none).memWrite 0x3000 0 = (State.reset.setPc 0x3000) := by decide

/-- The host's word is the one the next step runs. -/
theorem test_withFetchWord : (driverStep (State.reset.withFetchWord 16 0x1065)).map (fun t => t.reg .r0) = some 5 := by
  decide

/-! ## Witnesses: each hypothesis of a statement is met, each clause at a bound of its range -/

/-- DecodeOfEncodeIsTheInstruction, EncodeOfDecodeKeepsNamedBits. -/
theorem witness_consistent_map : standardOpcodeMap.Consistent ∧ (Instr.br true true true (-256)).wf = true ∧
    (Instr.addImm .r7 .r7 15).wf = true ∧ (Instr.str .r7 .r7 (-32)).wf = true :=
  ⟨standardOpcodeMap_consistent, by decide⟩

/-- IgnoredBitsDoNotMatter: two words that differ. -/
theorem witness_ignored_bits :
    0xC0C0#16 &&& (decode 0xC0C0#16).namedBits = 0xCEFF#16 &&& (decode 0xC0C0#16).namedBits ∧
    0x1401#16 &&& (decode 0x1401#16).namedBits = 0x1419#16 &&& (decode 0x1401#16).namedBits := by decide

/-- ExtractorIsTheSlice: the highest one-bit field and the whole word. -/
theorem witness_extractor : (1 ≤ 16 ∧ 1 ≤ 1 ∧ 16 + 1 - 1 ≤ 16) ∧ (1 ≤ 1 ∧ 1 ≤ 16 ∧ 1 + 16 - 1 ≤ 16) ∧ 15 < 16 := by decide

/-- SignExtension: each side of the sign, and a word with each of the three signed fields. -/
theorem witness_sign :
    (1 ≤ 5 ∧ (15#5).toNat < 2 ^ (5 - 1)) ∧ 2 ^ (5 - 1) ≤ (16#5).toNat ∧ 5 ≤ 16 ∧ 15 < 16 ∧
    signedOperand (decode 0x1070#16) = some (5, -16) ∧ signedOperand (decode 0x679F#16) = some (6, 31) ∧
    signedOperand (decode 0x2100#16) = some (9, -256) := by decide

/-- OperateInstructionsShareOneShape. -/
theorem witness_operate :
    standardOpcodeMap.ofBits (BitVec.extractLsb' 12 4 0x1065#16) = .add ∧
    standardOpcodeMap.ofBits (BitVec.extractLsb' 12 4 0x5401#16) = .and ∧
    standardOpcodeMap.ofBits (BitVec.extractLsb' 12 4 0x9200#16) = .not := by decide

/-- The decode clauses of the instruction statements: the lowest and the highest word of each row. -/
theorem witness_rows :
    0x0000#16 &&& 0xF000#16 = 0x0000#16 ∧ 0x0FFF#16 &&& 0xF000#16 = 0x0000#16 ∧
    0x1000#16 &&& 0xF020#16 = 0x1000#16 ∧ 0x1FDF#16 &&& 0xF020#16 = 0x1000#16 ∧
    0x1020#16 &&& 0xF020#16 = 0x1020#16 ∧ 0x1FFF#16 &&& 0xF020#16 = 0x1020#16 ∧
    0x2FFF#16 &&& 0xF000#16 = 0x2000#16 ∧ 0x3FFF#16 &&& 0xF000#16 = 0x3000#16 ∧
    0x4FFF#16 &&& 0xF000#16 = 0x4000#16 ∧
    0x5000#16 &&& 0xF020#16 = 0x5000#16 ∧ 0x5FDF#16 &&& 0xF020#16 = 0x5000#16 ∧
    0x5020#16 &&& 0xF020#16 = 0x5020#16 ∧ 0x5FFF#16 &&& 0xF020#16 = 0x5020#16 ∧
    0x6FFF#16 &&& 0xF000#16 = 0x6000#16 ∧ 0x7FFF#16 &&& 0xF000#16 = 0x7000#16 ∧
    0x8FFF#16 &&& 0xF000#16 = 0x8000#16 ∧ 0x9FFF#16 &&& 0xF000#16 = 0x9000#16 ∧
    0xAFFF#16 &&& 0xF000#16 = 0xA000#16 ∧ 0xBFFF#16 &&& 0xF000#16 = 0xB000#16 ∧
    0xCFFF#16 &&& 0xF000#16 = 0xC000#16 ∧ 0xDFFF#16 &&& 0xF000#16 = 0xD000#16 ∧
    0xEFFF#16 &&& 0xF000#16 = 0xE000#16 ∧ 0xFFFF#16 &&& 0xF000#16 = 0xF000#16 := by decide

/-- The statements of LD, ST, LDI, STI, LEA, of LEA's round trip and of a taken BR: the address at each end of memory, and
one past it. -/
theorem witness_pc_relative :
    ((0x0000#16).toNat : Int) = (State.reset.setPc 0x0001#16).pc.toNat + -1 ∧
    ((0xFFFF#16).toNat : Int) = (State.reset.setPc 0xFFFE#16).pc.toNat + 1 ∧
    ((State.reset.setPc 0x0001#16).pc.toNat : Int) + -2 < 0 ∧
    ((State.reset.setPc 0xFFFF#16).pc.toNat : Int) + 1 > 65535 ∧ Reg.r1 ≠ Reg.r0 := by decide

/-- The statements of LDR and STR: the same, from a base register. -/
theorem witness_base_offset :
    ((0x0000#16).toNat : Int) = ((State.reset.setReg .r1 0x0020#16).reg .r1).toNat + -32 ∧
    ((0xFFFF#16).toNat : Int) = ((State.reset.setReg .r1 0xFFFF#16).reg .r1).toNat + 0 ∧
    (((State.reset.setReg .r1 0x001F#16).reg .r1).toNat : Int) + -32 < 0 ∧
    (((State.reset.setReg .r1 0xFFE1#16).reg .r1).toNat : Int) + 31 > 65535 := by decide

/-- BrBranchesOnTheFlags: taken by each flag, and not taken. NoBranchIsTakenAfterReset: the flags of reset. -/
theorem witness_br :
    (∀ f : FlagState, f ≠ .none → branchTaken true true true f.flags = true) ∧
    branchTaken true true true FlagState.none.flags = false ∧
    branchTaken true false true FlagState.zero.flags = false ∧
    (State.reset.setPc 0xFFFF#16).flags = State.reset.flags :=
  ⟨fun f h => by cases f <;> first | rfl | exact absurd rfl h, by decide⟩

/-- A service that changes nothing. -/
def noEffect : ServiceEffect := { regs := [], mem := [], flags := none }

/-- TrapCallsTheServiceOfItsVector: an answer at the head of the list and one behind another vector's, a vector that the
list does not hold, in an empty list too, and each of the four answers. -/
theorem witness_trap_answers :
    (∀ x ∈ ([] : List (BitVec 8 × TrapAnswer)), x.1 ≠ 0x00#8) ∧
    (∀ x ∈ [(0x00#8, TrapAnswer.never)], x.1 ≠ 0xFF#8) ∧
    takeAnswer 0x25#8 [(0x25#8, .halt noEffect)] = (.halt noEffect, []) ∧
    takeAnswer 0xFF#8 [(0x00#8, .never), (0xFF#8, .resume noEffect 0xFFFF#16)] =
      (.resume noEffect 0xFFFF#16, [(0x00#8, .never)]) ∧
    takeAnswer 0x00#8 [(0xFF#8, .never)] = (.unregistered, [(0xFF#8, .never)]) ∧
    takeAnswer 0x00#8 [(0x00#8, .never)] = (.never, []) := by decide

/-- PendingAnswersAreEveryTrapService: a service that keeps the contract, a state, and a result it may have; and a result
of the model. -/
theorem witness_trap_service :
    svcMin.Lawful ∧ State.reset.Inv ∧ State.reset.services = [] ∧
    TrapUnder svcMin 0x25#8 State.reset (returnHalted (trapEntry State.reset)) ∧
    exec (.trap 0x25#8) State.reset = raise .trapUnregistered (trapEntry State.reset) := by
  refine ⟨?_, ⟨rfl, Memory.wf_nil⟩, rfl, .inr (.inl ⟨_, .inl ⟨rfl, rfl⟩, rfl⟩), rfl⟩
  intro v s
  constructor
  · rintro s' (⟨-, h⟩ | ⟨-, h⟩)
    · cases h; exact ⟨rfl, id, id, rfl, rfl⟩
    · cases h
  · rintro s' a (⟨-, h⟩ | ⟨-, h⟩) <;> cases h

/-- MinimalServicesHaltAndReturn: vectors beside the named ones. -/
theorem witness_vectors : 0x21#8 ≠ 0x25#8 ∧ 0x24#8 ≠ 0x25#8 ∧ 0x24#8 ≠ 0x21#8 := by decide

/-- RegistersAreEightIndependentWords, MemWriteSetsOneWord, TrapEntryAndReturn, DriverSetsPcAndRegistersOnly: another
register, another address. -/
theorem witness_other_places : Reg.r0 ≠ Reg.r7 ∧ 0xFFFF#16 ≠ 0x0000#16 := by decide

/-- MemoriesThatReadAlikeAreEqual: two memories built in another order. -/
theorem witness_memories :
    let m := (Memory.write [] 0x0000 1).write 0xFFFF 2
    let k := (Memory.write [] 0xFFFF 2).write 0x0000 1
    m.wf ∧ k.wf ∧ ∀ a : Word, m.read a = k.read a := by
  refine ⟨by decide, by decide, fun a => ?_⟩
  have h : (Memory.write [] 0x0000 1).write 0xFFFF 2 = (Memory.write [] 0xFFFF 2).write 0x0000 1 := by decide
  rw [h]

/-- AddressCalculatorNeverWraps: the first and last address, and the sums one past them. -/
theorem witness_address_sums :
    (0 ≤ ((0x0001#16).toNat : Int) + -1 ∧ ((0x0001#16).toNat : Int) + -1 ≤ 65535) ∧
    (0 ≤ ((0xFFFE#16).toNat : Int) + 1 ∧ ((0xFFFE#16).toNat : Int) + 1 ≤ 65535) ∧
    ((0x0000#16).toNat : Int) + -1 < 0 ∧ ((0xFFFF#16).toNat : Int) + 1 > 65535 := by decide

/-- StepRunsTheDecodedInstruction: the last address that runs, and the one that does not. -/
theorem witness_top :
    (State.reset.setPc 0xFFFE#16).pc ≠ 0xFFFF#16 ∧ (State.reset.setPc 0xFFFF#16).pc = 0xFFFF#16 := by decide

/-- StepKeepsTheInvariant: a state that meets the invariant and steps, and one whose step is an error. -/
theorem witness_invariant :
    (start 0x3000 0x3602 .zero).Inv ∧ (∃ t, step (start 0x3000 0x3602 .zero) = .next t) ∧
    (start 0x3000 0xD000 .zero).Inv ∧ ∃ f t, step (start 0x3000 0xD000 .zero) = .fault f ∧ f.left = some t :=
  ⟨⟨by decide, by decide⟩, ⟨_, rfl⟩, ⟨by decide, by decide⟩, _, _, rfl, rfl⟩

/-- DecodeErrorExactlyOnUndefinedOpcodes, ErrorsWriteNothingElse: a step that ends in each error, and the error at the
top. -/
theorem witness_errors :
    (∃ t, step (start 0x3000 0x4000 .zero) = .fault (.decodeError t)) ∧
    (∃ t, step (start 0xFFFE 0x2001 .zero) = .fault (.addressSpaceViolation t)) ∧
    (∃ t, step (start 0xFFFF 0x0000 .zero) = .fault (.addressSpaceViolation t)) ∧
    ∃ t, step (start 0x3005 0xF000 .zero) = .fault (.trapUnregistered t) := ⟨⟨_, rfl⟩, ⟨_, rfl⟩, ⟨_, rfl⟩, _, rfl⟩

/-- PcAdvancesByOneUnlessTransferred: a step of each case. -/
theorem witness_pc_cases :
    (∃ t, step (start 0x0000 0x0FFF .positive) = .next t ∧
      addressSum (decode 0x0FFF#16) (start 0x0000 0x0FFF .positive) ≠ none) ∧
    (∃ t, step (start 0x0000 0x0004 .positive) = .next t ∧
      addressSum (decode 0x0004#16) (start 0x0000 0x0004 .positive) = none) ∧
    (∃ t, step (start 0x3000 0xC000 .positive) = .next t ∧ decode 0xC000#16 = .jmp .r0) ∧
    (∃ t, step ((start 0xFFFE 0xF025 .positive).setServices [(0x25#8, .halt noEffect)]) = .next t ∧
      t.outcome = .halted) ∧
    ∃ t, step (start 0xFFFE 0x1021 .positive) = .next t ∧ decode 0x1021#16 = .addImm .r0 .r0 1 :=
  ⟨⟨_, rfl, by decide⟩, ⟨_, rfl, by decide⟩, ⟨_, rfl, by decide⟩, ⟨_, rfl, by decide⟩, _, rfl, by decide⟩

/-- FlagsChangeOnlyWithAResult, OnlyTheNamedRegisterIsWritten: a step that writes a result, and one that writes none. -/
theorem witness_results :
    (∃ t, step (start 0x3000 0x1021 .zero) = .next t ∧ resultReg (decode 0x1021#16) = some .r0 ∧
      isTrap (decode 0x1021#16) = false ∧ resultReg (decode 0x1021#16) ≠ some .r7) ∧
    ∃ t, step (start 0x3000 0x3602 .zero) = .next t ∧ resultReg (decode 0x3602#16) = none ∧
      isTrap (decode 0x3602#16) = false := ⟨⟨_, rfl, by decide⟩, _, rfl, by decide⟩

/-- OnlyStoresWriteMemory: ST, STI and STR at an end of memory, and a step that stores nothing. -/
theorem witness_stores :
    (∃ t, step (start 0xFFFE 0x3000 .zero) = .next t ∧
      storeTarget (decode 0x3000#16) ((start 0xFFFE 0x3000 .zero).setPc 0xFFFF) = some (0xFFFF, .r0)) ∧
    (∃ t, step (start 0x3000 0xB803 .zero) = .next t ∧
      storeTarget (decode 0xB803#16) ((start 0x3000 0xB803 .zero).setPc 0x3001) = some (0x0000, .r4)) ∧
    (∃ t, step (start 0x3000 0x7040 .zero) = .next t ∧
      storeTarget (decode 0x7040#16) ((start 0x3000 0x7040 .zero).setPc 0x3001) = some (0x0000, .r0)) ∧
    ∃ t, step (start 0x3000 0x2000 .zero) = .next t ∧
      storeTarget (decode 0x2000#16) ((start 0x3000 0x2000 .zero).setPc 0x3001) = none ∧
      isTrap (decode 0x2000#16) = false := ⟨⟨_, rfl, by decide⟩, ⟨_, rfl, by decide⟩, ⟨_, rfl, by decide⟩, _, rfl, by decide⟩

/-- NextFetchSeesTheStore: a store to the next word, and one to the instruction's own. -/
theorem witness_self_modifying :
    (∃ t, step (start 0x3000 0x3000 .zero) = .next t ∧ t.pc ≠ 0xFFFF#16 ∧
      storeTarget (decode 0x3000#16) ((start 0x3000 0x3000 .zero).setPc 0x3001) = some (t.pc, .r0)) ∧
    ∃ t, step (start 0x3000 0x31FF .zero) = .next t ∧
      storeTarget (decode 0x31FF#16) ((start 0x3000 0x31FF .zero).setPc 0x3001) = some (0x3000, .r0) :=
  ⟨⟨_, rfl, by decide⟩, _, rfl, by decide⟩

/-- OperateAndTransferIgnoreMemory, OnlyBrReadsTheFlags. -/
theorem witness_opcodes :
    (Instr.addReg .r0 .r0 .r0).opcode = .add ∧ (Instr.andImm .r0 .r0 0).opcode = .and ∧
    (Instr.notReg .r0 .r0).opcode = .not ∧ (Instr.lea .r0 0).opcode = .lea ∧
    (Instr.br true true true 0).opcode = .br ∧ (Instr.jmp .r0).opcode = .jmp ∧
    (Instr.ld .r0 0).opcode ≠ .br ∧ (Instr.ld .r0 0).opcode ≠ .trap := by decide

/-- LoadWritesTheBlockOrFails: one word too many, a block that ends at 65535, and the addresses around a block. -/
theorem witness_load :
    0xFFFE + [1#16, 2#16, 3#16].length > 65536 ∧ 0xFFFE + [1#16, 2#16].length ≤ 65536 ∧ 1 < [1#16, 2#16].length ∧
    0xFFFD < 0xFFFE ∧ 0x3000 + [1#16, 2#16].length ≤ 0x3002 := by decide

/-- RunReturnsAtTheFirstOtherOutcome: a step of each outcome and one whose service never answers; a run that has returned,
one that has not, and one that is stuck. -/
theorem witness_run :
    (∃ t, step (start 0xFFFE 0x1021 .positive) = .next t ∧ t.outcome = .normal) ∧
    (∃ t, step ((start 0xFFFE 0xF025 .positive).setServices [(0x25#8, .halt noEffect)]) = .next t ∧
      t.outcome = .halted) ∧
    (∃ t, step (start 0x3000 0x4000 .zero) = .fault (.decodeError t)) ∧
    (∃ t, step (start 0xFFFF 0x0000 .zero) = .fault (.addressSpaceViolation t)) ∧
    (∃ t, step (start 0x3005 0xF000 .zero) = .fault (.trapUnregistered t)) ∧
    (∃ t, step ((start 0x3005 0xF000 .zero).setServices [(0x00#8, .never)]) = .fault (.trapNeverAnswers t)) ∧
    (∃ t, runFor 2 (start 0x3001 0xD000 .zero |>.setPc 0x3000) = .returned t) ∧
    (∃ t, runFor 2 State.reset = .running t) ∧
    runFor 1 ((start 0x3005 0xF000 .zero).setServices [(0x00#8, .never)]) = .stuck :=
  ⟨⟨_, rfl, rfl⟩, ⟨_, rfl, rfl⟩, ⟨_, rfl⟩, ⟨_, rfl⟩, ⟨_, rfl⟩, ⟨_, rfl⟩, ⟨_, rfl⟩, ⟨_, rfl⟩, rfl⟩

/-- `TRAP x21` at 3000, then `BRnzp #-2` back to it, with R7 already 3001: the state a round comes back to. -/
def loop : State := ((start 0x3000 0xF021 .positive).memWrite 0x3001 0x0FFE).setReg .r7 0x3001

/-- SVC_RET (R86) stands for ever: however often the loop calls it, the run goes on. -/
theorem test_service_for_life (k : Nat) : RunUnder svcRet (2 * k) loop (.running loop) := by
  induction k with
  | zero => rfl
  | succ k ih =>
    exact .inl ⟨.next (loop.setPc 0x3001), _, .inl ⟨0x21#8, rfl, .inr (.inr ⟨_, 0x3001, .inr (.inl ⟨rfl, rfl⟩), rfl⟩)⟩, rfl,
      .inl ⟨.next loop, _, .inr ⟨by decide, rfl⟩, rfl, ih⟩⟩

/-- V7: `TRAP x25` under SVC_MIN halts, in every run. -/
theorem test_ends_well_under_svcMin : EndsWellUnder svcMin 1 (start 0x3005 0xF025 .positive) := by
  rintro r (⟨a, t, ⟨v, hv, hu⟩ | ⟨h, -⟩, ht, hr⟩ | ⟨h, -⟩)
  · obtain rfl : v = 0x25#8 := (Instr.trap.inj hv).symm
    rcases hu with ⟨⟨-, h⟩ | ⟨h, -⟩, -⟩ | ⟨s', ⟨-, h⟩ | ⟨h, -⟩, rfl⟩ | ⟨s', b, ⟨-, h⟩ | ⟨h, -⟩, rfl⟩
    · cases h
    · exact absurd rfl h
    · cases h; cases ht; exact ⟨_, hr, rfl⟩
    · exact absurd rfl h
    · cases h
    · exact absurd rfl h
  · exact absurd rfl h
  · exact absurd (.inl ⟨0x25#8, rfl, .inr (.inl ⟨_, .inl ⟨rfl, rfl⟩, rfl⟩)⟩) (h _)

/-- ServiceIsAskedAtEveryTrap: a step at the top, one of no TRAP, and one of a TRAP. -/
theorem witness_serviced_step :
    (start 0xFFFF 0xF021 .zero).pc = 0xFFFF#16 ∧ isTrap (decode ((start 0xFFFE 0x1021 .zero).memRead 0xFFFE)) = false ∧
    (start 0xFFFE 0xF021 .zero).pc ≠ 0xFFFF#16 ∧ decode ((start 0xFFFE 0xF021 .zero).memRead 0xFFFE) = .trap 0x21#8 := by
  decide

/-- ServicedStepKeepsTheInvariant, ServicedRunsAreRunsOfTheModel: a service that keeps the contract, a state, and a step and
a run of it. -/
theorem witness_serviced_run :
    svcMin.Lawful ∧ State.reset.Inv ∧ State.reset.services = [] ∧
    StepUnder svcMin State.reset (.next (State.reset.setPc 1)) ∧
    stateLeft (.next (State.reset.setPc 1)) = some (State.reset.setPc 1) ∧
    RunUnder svcMin 1 State.reset (.running (State.reset.setPc 1)) :=
  ⟨witness_trap_service.1, witness_trap_service.2.1, rfl, .inr ⟨by decide, rfl⟩, rfl,
    .inl ⟨.next (State.reset.setPc 1), _, .inr ⟨by decide, rfl⟩, rfl, rfl⟩⟩

/-- RunsOfTheModelAreServicedRuns: a run that is not stuck, and one that is. -/
theorem witness_model_run :
    runFor 2 State.reset ≠ .stuck ∧
    runFor 1 ((start 0x3005 0xF000 .zero).setServices [(0x00#8, .never)]) = .stuck := ⟨by decide, rfl⟩

end Sys2Proof.Tests
end

section
/-! Proofs: what one step does, from what its instruction does (R50, R52, R53). -/

namespace Sys2Proof.Machine

/-- Below the top the incremented pc is one higher as a number: it does not wrap. -/
theorem toNat_add_one_of_ne_top {a : Word} (h : a ≠ 0xFFFF#16) : (a + 1).toNat = a.toNat + 1 := by
  have hlt : a.toNat < 65535 := by
    have hne : a.toNat ≠ 65535 := fun e => h (BitVec.eq_of_toNat_eq e)
    have := a.isLt
    omega
  have hone : (1 : Word).toNat = 1 := rfl
  rw [BitVec.toNat_add, hone]
  omega

theorem step_top {s : State} (h : s.pc = 0xFFFF#16) : step s = raise .addressSpaceViolation s := by
  simp [step, advancePc_top h]

theorem step_below {s : State} (h : s.pc ≠ 0xFFFF#16) :
    step s = exec (decode (s.memRead s.pc)) (s.setPc (s.pc + 1)) := by
  simp [step, advancePc_below h, fetch]

/-- A step that completes ran its instruction, below the top. -/
theorem step_next {s t : State} (h : step s = .next t) :
    s.pc ≠ 0xFFFF#16 ∧ Done (decode (s.memRead s.pc)) (s.setPc (s.pc + 1)) t := by
  by_cases hpc : s.pc = 0xFFFF#16
  · rw [step_top hpc] at h
    exact absurd h (raise_ne_next _ _ _)
  · rw [step_below hpc] at h
    exact ⟨hpc, exec_next h⟩

theorem stepUnder_top {svc : TrapService} {s : State} {r : Result} (h : s.pc = 0xFFFF#16) :
    StepUnder svc s r ↔ r = raise .addressSpaceViolation s := by
  simp [StepUnder, advancePc_top h]

theorem stepUnder_below {svc : TrapService} {s : State} {r : Result} (h : s.pc ≠ 0xFFFF#16) :
    StepUnder svc s r ↔ ExecUnder svc (decode (s.memRead s.pc)) (s.setPc (s.pc + 1)) r := by
  simp [StepUnder, advancePc_below h, fetch]

/-- A TRAP goes on with the next pending answer of its vector, after trap entry (R75). -/
theorem exec_trap {v : BitVec 8} {s : State} {x : TrapAnswer} {p : List (BitVec 8 × TrapAnswer)}
    (h : takeAnswer v s.services = (x, p)) :
    exec (.trap v) s = applyAnswer x ((trapEntry s).setServices p) := by
  show execTrap v s = _
  have hs : (trapEntry s).services = s.services := rfl
  simp [execTrap, invokeTrap, hs, h]

end Sys2Proof.Machine
end

section
/-! Proofs: the invariant (R9, R14), one rule per operation, then for an instruction and for a step. -/

namespace Sys2Proof.Machine

section Rules
variable (s : State)

@[simp] theorem State.inv_setReg (r : Reg) (v : Word) : (s.setReg r v).Inv ↔ s.Inv := Iff.rfl
@[simp] theorem State.inv_setPc (a : Word) : (s.setPc a).Inv ↔ s.Inv := Iff.rfl
@[simp] theorem State.inv_setServices (p : List (BitVec 8 × TrapAnswer)) : (s.setServices p).Inv ↔ s.Inv := Iff.rfl
@[simp] theorem State.inv_setOutcome (o : StepOutcome) : (s.setOutcome o).Inv ↔ s.Inv := Iff.rfl

end Rules

theorem State.Inv.setcc {s : State} (h : s.Inv) (v : Word) : (s.setcc v).Inv := ⟨flagsOf_legal v, h.2⟩

theorem State.Inv.memWrite {s : State} (h : s.Inv) (a v : Word) : (s.memWrite a v).Inv :=
  ⟨h.1, Memory.wf_write h.2 a v⟩

theorem State.Inv.afterService {s : State} (h : s.Inv) (e : ServiceEffect) : (s.afterService e).Inv :=
  ⟨State.afterService_legal h.1 e, State.afterService_wf h.2 e⟩

/-- An instruction that completes keeps the invariant. -/
theorem Done.inv {i : Instr} {s t : State} (hd : Done i s t) (hs : s.Inv) : t.Inv := by
  cases hd with
  | result d v => exact State.Inv.setcc (s := s.setReg d v) (by simpa using hs) v
  | store a r => simpa using hs.memWrite a (s.reg r)
  | stay | branch | jump => simpa using hs
  | halt v e p | resume v e a p =>
    exact State.Inv.afterService (s := (s.setReg .r7 s.pc).setServices p) (by simpa using hs) e

/-- The state an error leaves keeps the invariant. -/
theorem Failed.inv_left {i : Instr} {s t : State} {f : Fault} (hf : Failed i s f) (hs : s.Inv)
    (ht : f.left = some t) : t.Inv := by
  cases hf with
  | undefined | violation | unregistered => cases ht; simpa using hs
  | never => cases ht

/-- Whatever state an instruction leaves, completed or not, keeps the invariant. -/
theorem stateLeft_exec_inv {i : Instr} {s t : State} (hs : s.Inv) (ht : stateLeft (exec i s) = some t) : t.Inv := by
  rcases exec_cases i s with ⟨u, hu, hd⟩ | ⟨f, hf, hfail⟩
  · rw [hu] at ht
    cases ht
    exact hd.inv hs
  · rw [hf] at ht
    exact hfail.inv_left hs ht

theorem stateLeft_raise {e : ErrorOutcome} {s t : State} (h : stateLeft (raise e s) = some t) :
    ∃ o, t = s.setOutcome o := by
  cases e <;> cases h <;> exact ⟨_, rfl⟩

/-- Whatever state a step leaves keeps the invariant. -/
theorem stateLeft_step_inv {s t : State} (hs : s.Inv) (ht : stateLeft (step s) = some t) : t.Inv := by
  by_cases hpc : s.pc = 0xFFFF#16
  · rw [step_top hpc] at ht
    obtain ⟨o, rfl⟩ := stateLeft_raise ht
    simpa using hs
  · rw [step_below hpc] at ht
    exact stateLeft_exec_inv (by simpa using hs) ht

/-- Settles O36: the two clauses are the two ways a step leaves a state. -/
theorem stepKeepsTheInvariant : Obligations.StepKeepsTheInvariant := by
  unfold Obligations.StepKeepsTheInvariant
  intro s hs
  refine ⟨fun t h => stateLeft_step_inv hs ?_, fun f t h hf => stateLeft_step_inv hs ?_⟩
  · rw [h, stateLeft_next]
  · rw [h, stateLeft_fault, hf]

/-- Settles O37: no flag is set and no cell is listed. -/
theorem resetMeetsTheInvariant : Obligations.ResetMeetsTheInvariant := ⟨rfl, Memory.wf_nil⟩

/-! ### Under a trap service -/

/-- A permitted change keeps the invariant. -/
theorem Permitted.inv {s t : State} (h : Permitted s t) (hs : s.Inv) : t.Inv := by
  obtain ⟨-, hflags, hmem, -, -⟩ := h
  exact ⟨hflags hs.1, hmem hs.2⟩

theorem Permitted.services {s t : State} (h : Permitted s t) : t.services = s.services := by
  obtain ⟨-, -, -, hservices, -⟩ := h
  exact hservices

/-- An instruction that is no TRAP leaves what is pending. -/
theorem stateLeft_exec_services {i : Instr} {s t : State} (hi : isTrap i = false)
    (ht : stateLeft (exec i s) = some t) : t.services = s.services := by
  have h : some t = (some t).map fun u => u.setServices s.services := by
    rw [← ht]
    exact stateLeft_exec_setServices s.services hi s
  have h' : t = t.setServices s.services := Option.some.inj h
  rw [h', State.services_setServices]

/-- Under a lawful service a TRAP keeps the invariant and what is pending. -/
theorem TrapUnder.inv_services {svc : TrapService} {v : BitVec 8} {s t : State} {r : Result} (hsvc : svc.Lawful)
    (h : TrapUnder svc v s r) (hs : s.Inv) (ht : stateLeft r = some t) : t.Inv ∧ t.services = s.services := by
  obtain ⟨hhalt, hresume⟩ := hsvc v (trapEntry s)
  have hentry : (trapEntry s).Inv := by simpa [trapEntry] using hs
  rcases h with ⟨-, rfl⟩ | ⟨s', ha, rfl⟩ | ⟨s', a, ha, rfl⟩
  · obtain ⟨o, rfl⟩ := stateLeft_raise ht
    exact ⟨hentry, rfl⟩
  · cases ht
    exact ⟨(hhalt s' ha).inv hentry, (hhalt s' ha).services⟩
  · cases ht
    exact ⟨(hresume s' a ha).inv hentry, (hresume s' a ha).services⟩

/-- Under a lawful service every instruction keeps the invariant and what is pending. -/
theorem ExecUnder.inv_services {svc : TrapService} {i : Instr} {s t : State} {r : Result} (hsvc : svc.Lawful)
    (h : ExecUnder svc i s r) (hs : s.Inv) (ht : stateLeft r = some t) : t.Inv ∧ t.services = s.services := by
  rcases h with ⟨v, -, h⟩ | ⟨hi, rfl⟩
  · exact h.inv_services hsvc hs ht
  · exact ⟨stateLeft_exec_inv hs ht, stateLeft_exec_services (by simpa [isTrap] using hi) ht⟩

/-- Settles O54: at the top nothing runs; below it the step is an instruction under the service. -/
theorem servicedStepKeepsTheInvariant : Obligations.ServicedStepKeepsTheInvariant := by
  unfold Obligations.ServicedStepKeepsTheInvariant
  intro svc hsvc s t r hs h ht
  by_cases hpc : s.pc = 0xFFFF#16
  · rw [stepUnder_top hpc] at h
    subst h
    obtain ⟨o, rfl⟩ := stateLeft_raise ht
    exact ⟨hs, rfl⟩
  · rw [stepUnder_below hpc] at h
    have hs' : (s.setPc (s.pc + 1)).Inv := by simpa using hs
    exact (h.inv_services hsvc hs' ht :)

end Sys2Proof.Machine
end

section
/-! Proofs: memory in its one form is determined by what it reads (log entry 4). -/

namespace Sys2Proof.Machine

/-- In the one form, a cell is listed exactly when its word is what its address reads and differs from an unlisted one. -/
theorem Memory.mem_iff_readAt {m : Memory} (h : m.wf) (a : Nat) (v : Word) :
    (a, v) ∈ m ↔ m.readAt a = v ∧ v ≠ unlistedWord := by
  induction m with
  | nil => simpa [Memory.readAt_nil] using fun e : unlistedWord = v => e.symm
  | cons c m ih =>
    obtain ⟨k, u⟩ := c
    obtain ⟨hsorted, hcells⟩ := h
    obtain ⟨hlt, hsorted⟩ := List.pairwise_cons.1 hsorted
    have hu : u ≠ unlistedWord := (hcells (k, u) (by simp)).2
    have htail := ih ⟨hsorted, fun d hd => hcells d (by simp [hd])⟩
    rw [Memory.readAt_cons]
    by_cases hak : a = k
    · subst hak
      have hnot : (a, v) ∉ m := fun hmem => Nat.lt_irrefl a (hlt (a, v) hmem)
      simp only [List.mem_cons, Prod.mk.injEq, hnot, or_false, true_and, if_true]
      exact ⟨fun e => ⟨e.symm, e ▸ hu⟩, fun e => e.1.symm⟩
    · simp [hak, htail]

/-- Two memories in the one form that read alike have the same cells. -/
theorem Memory.mem_of_read_eq {m k : Memory} (hm : m.wf) (hk : k.wf) (h : ∀ a : Word, m.read a = k.read a) {c : Cell}
    (hc : c ∈ m) : c ∈ k := by
  obtain ⟨a, v⟩ := c
  have ha : a < 2 ^ 16 := (hm.2 (a, v) hc).1
  have hread : m.readAt a = k.readAt a := by
    have := h (BitVec.ofNat 16 a)
    rwa [Memory.read, Memory.read, BitVec.toNat_ofNat, Nat.mod_eq_of_lt ha] at this
  rw [Memory.mem_iff_readAt hm, hread] at hc
  exact (Memory.mem_iff_readAt hk a v).2 hc

theorem Memory.eq_of_read_eq {m k : Memory} (hm : m.wf) (hk : k.wf) (h : ∀ a : Word, m.read a = k.read a) : m = k := by
  have : Std.Irrefl fun c d : Cell => c.1 < d.1 := ⟨fun c => Nat.lt_irrefl c.1⟩
  have : Std.Antisymm fun c d : Cell => c.1 < d.1 := ⟨fun _ _ hcd hdc => absurd hdc (Nat.lt_asymm hcd)⟩
  exact hm.1.eq_of_mem_iff hk.1 fun c => ⟨Memory.mem_of_read_eq hm hk h, Memory.mem_of_read_eq hk hm fun a => (h a).symm⟩

/-- Settles O30: the cells of a sorted list, and so the list, are what its addresses read. -/
theorem memoriesThatReadAlikeAreEqual : Obligations.MemoriesThatReadAlikeAreEqual :=
  ⟨fun _ a v h => Memory.wf_write h a v, fun _ _ => Memory.eq_of_read_eq⟩

end Sys2Proof.Machine
end

section
/-! Proofs: what an instruction that completes does to `pc`, flags and registers (R11, R13, R14, R16). -/

namespace Sys2Proof.Machine

section Frame
variable {i : Instr} {s t : State}

/-- An instruction that transfers no control leaves the incremented pc. -/
theorem Done.pc_of_no_transfer (hd : Done i s t) (hbr : i.opcode ≠ .br) (hjmp : i.opcode ≠ .jmp)
    (htrap : i.opcode ≠ .trap) : t.pc = s.pc := by
  cases hd with
  | result | store => rfl
  | stay _ _ _ _ h | branch _ _ _ _ _ h => exact absurd (congrArg Instr.opcode h) hbr
  | jump _ h => exact absurd (congrArg Instr.opcode h) hjmp
  | halt _ _ _ h | resume _ _ _ _ h => exact absurd (congrArg Instr.opcode h) htrap

/-- A BR that forms no sum is not taken and leaves the incremented pc; a taken one goes to the exact sum. -/
theorem Done.pc_br {n z p : Bool} {off9 : Int} (hd : Done (.br n z p off9) s t) :
    if addressSum (.br n z p off9) s = none then t.pc = s.pc else (t.pc.toNat : Int) = s.pc.toNat + off9 := by
  rw [addressSum_br]
  cases hd with
  | stay n z p off9 h hb => cases h; simp [hb]
  | branch n z p off9 a h hb ha => cases h; simp [hb, ha]
  | result _ _ h | store _ _ h | jump _ h | halt _ _ _ h | resume _ _ _ _ h => cases h

theorem Done.pc_jmp {base : Reg} (hd : Done (.jmp base) s t) : t.pc = s.reg base := by
  cases hd with
  | jump base h => cases h; rfl
  | result _ _ h | store _ _ h | stay _ _ _ _ h | branch _ _ _ _ _ h | halt _ _ _ h | resume _ _ _ _ h => cases h

/-- A TRAP that halts leaves the incremented pc (D12). -/
theorem Done.pc_of_halted (hd : Done i s t) (h : t.outcome = .halted) : t.pc = s.pc := by
  cases hd with
  | halt v e p => exact (State.afterService_frame _ e).1
  | result | store | stay | branch | jump | resume => cases h

/-- A result's flags are those of the word now in its register. -/
theorem Done.flags_of_result {d : Reg} (hd : Done i s t) (hr : resultReg i = some d) : t.flags = flagsOf (t.reg d) := by
  cases hd with
  | result d' v h =>
    obtain rfl : d' = d := Option.some.inj (h.symm.trans hr)
    simp
  | store _ _ _ hn => cases hn.symm.trans hr
  | stay _ _ _ _ h | branch _ _ _ _ _ h | jump _ h | halt _ _ _ h | resume _ _ _ _ h => subst h; cases hr

/-- Without a result, and a TRAP's service apart, the flags stay. -/
theorem Done.flags_of_no_result (hd : Done i s t) (hr : resultReg i = none) (hi : isTrap i = false) :
    t.flags = s.flags := by
  cases hd with
  | result _ _ h => cases h.symm.trans hr
  | store | stay | branch | jump => rfl
  | halt _ _ _ h | resume _ _ _ _ h => subst h; cases hi

/-- A register that is not the result's stays, a TRAP's service apart. -/
theorem Done.reg_of_not_result {r : Reg} (hd : Done i s t) (hi : isTrap i = false) (hr : resultReg i ≠ some r) :
    t.reg r = s.reg r := by
  cases hd with
  | result d v h =>
    have hne : r ≠ d := fun e => hr (by rw [h, e])
    simp [hne]
  | store | stay | branch | jump => rfl
  | halt _ _ _ h | resume _ _ _ _ h => subst h; cases hi

end Frame

/-- The flags of a word are never 000: its sign is one of three. -/
theorem flagsOf_some_set (v : Word) : ((flagsOf v).n || (flagsOf v).z || (flagsOf v).p) = true := by
  simp only [flagsOf, Bool.or_eq_true, decide_eq_true_eq]
  omega

/-- Settles O42, for each of the four ways an instruction leaves `pc`. -/
theorem pcAdvancesByOneUnlessTransferred : Obligations.PcAdvancesByOneUnlessTransferred := by
  unfold Obligations.PcAdvancesByOneUnlessTransferred
  intro s t h
  obtain ⟨hpc, hd⟩ := step_next h
  have hsucc : (s.pc + 1).toNat = s.pc.toNat + 1 := toNat_add_one_of_ne_top hpc
  generalize decode (s.memRead s.pc) = i at hd ⊢
  cases i with
  | br n z p off9 =>
    have hbr := hd.pc_br
    rw [State.pc_setPc, hsucc] at hbr
    show if _ then _ else _
    split <;> rename_i hsum
    · rw [if_pos hsum] at hbr
      rw [hbr, hsucc]
    · rw [if_neg hsum] at hbr
      exact hbr
  | jmp base => exact hd.pc_jmp
  | trap v =>
    intro ho
    rw [hd.pc_of_halted ho]
    exact hsucc
  | _ =>
    show t.pc.toNat = s.pc.toNat + 1
    rw [hd.pc_of_no_transfer (by simp [Instr.opcode]) (by simp [Instr.opcode]) (by simp [Instr.opcode])]
    exact hsucc

/-- Settles O43, from what a result and the lack of one do to the flags. -/
theorem flagsChangeOnlyWithAResult : Obligations.FlagsChangeOnlyWithAResult := by
  unfold Obligations.FlagsChangeOnlyWithAResult
  intro s t h
  obtain ⟨-, hd⟩ := step_next h
  refine ⟨fun d hr => ?_, fun hr hi => hd.flags_of_no_result hr hi⟩
  rw [hd.flags_of_result hr]
  exact ⟨flagsOf_match _, flagsOf_legal _, flagsOf_some_set _⟩

/-- Settles O44, by the frame on registers of an instruction that completes. -/
theorem onlyTheNamedRegisterIsWritten : Obligations.OnlyTheNamedRegisterIsWritten := by
  unfold Obligations.OnlyTheNamedRegisterIsWritten
  intro s t h hi r hr
  obtain ⟨-, hd⟩ := step_next h
  exact hd.reg_of_not_result hi hr

end Sys2Proof.Machine
end

section
/-! Proofs: only BR reads the flags (R16). -/

namespace Sys2Proof.Machine

/-- How the answers of an instruction that does not read the flags are related, from a state and from that state with
the flags `f`. -/
def FlagsUnread (i : Instr) (f : Flags) (x y : Result) : Prop :=
  (∃ t u, x = .next t ∧ y = .next u ∧ u.setFlags t.flags = t ∧
    (resultReg i ≠ none → u.flags = t.flags) ∧ (resultReg i = none → u.flags = f)) ∨
  (∃ t, x = .fault (.addressSpaceViolation t) ∧ y = .fault (.addressSpaceViolation (t.setFlags f))) ∨
  ∃ t, x = .fault (.decodeError t) ∧ y = .fault (.decodeError (t.setFlags f))

section Endings
variable {i : Instr} (f : Flags) (s : State)

theorem flagsUnread_writeResult {d : Reg} (h : resultReg i = some d) (v : Word) :
    FlagsUnread i f (writeResult d v s) (writeResult d v (s.setFlags f)) :=
  .inl ⟨_, _, rfl, rfl, rfl, fun _ => rfl, fun hn => absurd (h.symm.trans hn) (Option.some_ne_none d)⟩

theorem flagsUnread_returnNormal (h : resultReg i = none) :
    FlagsUnread i f (returnNormal s) (returnNormal (s.setFlags f)) :=
  .inl ⟨_, _, rfl, rfl, rfl, fun hn => absurd h hn, fun _ => rfl⟩

theorem flagsUnread_decodeError : FlagsUnread i f (raise .decodeError s) (raise .decodeError (s.setFlags f)) :=
  .inr (.inr ⟨_, rfl, rfl⟩)

theorem flagsUnread_withAddress (a? : Option Word) {k l : Word → Result} (h : ∀ a, FlagsUnread i f (k a) (l a)) :
    FlagsUnread i f (withAddress a? s k) (withAddress a? (s.setFlags f) l) := by
  cases a? with
  | none => exact .inr (.inl ⟨_, rfl, rfl⟩)
  | some a => exact h a

theorem flagsUnread_loadFrom {r : Reg} (h : resultReg i = some r) (a? : Option Word) :
    FlagsUnread i f (loadFrom a? r s) (loadFrom a? r (s.setFlags f)) :=
  flagsUnread_withAddress f s a? fun a => flagsUnread_writeResult f s h (s.memRead a)

theorem flagsUnread_storeTo (h : resultReg i = none) (a? : Option Word) (r : Reg) :
    FlagsUnread i f (storeTo a? r s) (storeTo a? r (s.setFlags f)) :=
  flagsUnread_withAddress f s a? fun a => flagsUnread_returnNormal f (s.memWrite a (s.reg r)) h

end Endings

/-- Every instruction but BR and TRAP ends in one of the ways above, with operands that do not depend on the flags. -/
theorem exec_flagsUnread {i : Instr} (hbr : i.opcode ≠ .br) (htrap : i.opcode ≠ .trap) (f : Flags) (s : State) :
    FlagsUnread i f (exec i s) (exec i (s.setFlags f)) := by
  cases i with
  | br => exact absurd rfl hbr
  | trap => exact absurd rfl htrap
  | addReg | addImm | andReg | andImm | notReg => exact flagsUnread_writeResult f s rfl _
  | ld | ldi | ldr => exact flagsUnread_loadFrom f s rfl _
  | st | sti | str => exact flagsUnread_storeTo f s rfl _ _
  | lea => exact flagsUnread_withAddress f s _ fun a => flagsUnread_writeResult f s rfl a
  | jmp base => exact flagsUnread_returnNormal f (s.setPc (s.reg base)) rfl
  | undefined0100 | undefined1000 | undefined1101 => exact flagsUnread_decodeError f s

/-- Settles O48: the statement is `FlagsUnread` of the two answers. -/
theorem onlyBrReadsTheFlags : Obligations.OnlyBrReadsTheFlags :=
  fun _ s f hbr htrap => exec_flagsUnread hbr htrap f s

end Sys2Proof.Machine
end

section
/-! Proofs: no step depends on the last outcome (D12, log entry 3). -/

namespace Sys2Proof.Machine

section Latch
variable (o : StepOutcome)

theorem State.setRegs_setOutcome (ws : List (Reg × Word)) :
    ∀ s : State, (s.setOutcome o).setRegs ws = (s.setRegs ws).setOutcome o := by
  induction ws with
  | nil => exact fun _ => rfl
  | cons w ws ih => exact fun s => ih (s.setReg w.1 w.2)

theorem State.memWrites_setOutcome (ws : List (Word × Word)) :
    ∀ s : State, (s.setOutcome o).memWrites ws = (s.memWrites ws).setOutcome o := by
  induction ws with
  | nil => exact fun _ => rfl
  | cons w ws ih => exact fun s => ih (s.memWrite w.1 w.2)

/-- What a service changes does not depend on the last outcome. -/
theorem State.afterService_setOutcome (s : State) (e : ServiceEffect) :
    (s.setOutcome o).afterService e = (s.afterService e).setOutcome o := by
  rw [State.afterService, State.setRegs_setOutcome, State.memWrites_setOutcome, State.afterService]
  cases e.flags <;> rfl

theorem withAddress_setOutcome (a? : Option Word) (s : State) {k l : Word → Result} (h : ∀ a, l a = k a) :
    withAddress a? (s.setOutcome o) l = withAddress a? s k := by
  cases a? with
  | none => rfl
  | some a => exact h a

/-- What the core does with an answer overwrites the last outcome, but where the service never answers. -/
theorem applyAnswer_setOutcome {x : TrapAnswer} (hx : x ≠ .never) (s : State) :
    applyAnswer x (s.setOutcome o) = applyAnswer x s := by
  cases x with
  | unregistered => rfl
  | halt e => simp only [applyAnswer, State.afterService_setOutcome]; rfl
  | resume e a => simp only [applyAnswer, State.afterService_setOutcome]; rfl
  | never => exact absurd rfl hx

/-- An instruction does not depend on the last outcome, but that the record of a service that never answers holds it. -/
theorem exec_setOutcome (i : Instr) (s : State) :
    exec i (s.setOutcome o) = exec i s ∨
      ∃ t, exec i s = .fault (.trapNeverAnswers t) ∧
        exec i (s.setOutcome o) = .fault (.trapNeverAnswers (t.setOutcome o)) := by
  cases i with
  | br n z p off9 =>
    refine .inl ?_
    show (if branchTaken n z p s.flags = true then _ else _) = (if branchTaken n z p s.flags = true then _ else _)
    split
    · exact withAddress_setOutcome o _ s fun _ => rfl
    · rfl
  | trap v =>
    rcases h : takeAnswer v s.services with ⟨x, p⟩
    rw [exec_trap (s := s.setOutcome o) h, exec_trap h]
    by_cases hx : x = .never
    · subst hx
      exact .inr ⟨_, rfl, rfl⟩
    · exact .inl (applyAnswer_setOutcome o hx ((trapEntry s).setServices p))
  | ld | st | ldi | sti | ldr | str | lea => exact .inl (withAddress_setOutcome o _ s fun _ => rfl)
  | addReg | addImm | andReg | andImm | notReg | jmp | undefined0100 | undefined1000 | undefined1101 => exact .inl rfl

end Latch

/-- Settles O49: at the top the violation overwrites the field, below it the instruction does not read it. -/
theorem noOutcomeIsLatched : Obligations.NoOutcomeIsLatched := by
  unfold Obligations.NoOutcomeIsLatched
  intro s o
  by_cases hpc : s.pc = 0xFFFF#16
  · rw [step_top hpc, step_top (s := s.setOutcome o) hpc]
    exact .inl rfl
  · rw [step_below hpc, step_below (s := s.setOutcome o) hpc]
    exact exec_setOutcome o _ (s.setPc (s.pc + 1))

end Sys2Proof.Machine
end

section
/-! Proofs: the flags of a word, the registers, and the state after reset (R10, R15, R19). -/

namespace Sys2Proof.Machine

/-! ### The flags by R15's second formula -/

theorem flagsOf_n (v : Word) : (flagsOf v).n = v.getLsbD 15 := by
  rw [← BitVec.msb_eq_getLsbD_last v, BitVec.msb_eq_toInt]
  rfl

theorem flagsOf_z (v : Word) : (flagsOf v).z = (v == 0#16) := by
  have h : v.toInt = 0 ↔ v = 0#16 := by rw [← BitVec.toInt_inj, BitVec.toInt_zero]
  simp [flagsOf, h, Bool.beq_eq_decide_eq]

theorem flagsOf_p (v : Word) : (flagsOf v).p = (!v.getLsbD 15 && v != 0#16) := by
  have h : decide (v.toInt > 0) = (!decide (v.toInt < 0) && !decide (v.toInt = 0)) := by
    rw [Bool.eq_iff_iff]
    simp only [Bool.and_eq_true, Bool.not_eq_true', decide_eq_true_eq, decide_eq_false_iff_not]
    omega
  rw [bne, ← flagsOf_n, ← flagsOf_z]
  exact h

/-- Settles O27, by the two formulas; the corner values compute. -/
theorem setccFollowsTheSign : Obligations.SetccFollowsTheSign := by
  unfold Obligations.SetccFollowsTheSign
  intro s v
  exact ⟨flagsOf_match v, flagsOf_n v, flagsOf_z v, flagsOf_p v, rfl, rfl, rfl, rfl, rfl, rfl, rfl, rfl⟩

@[simp] theorem State.reg_reset (r : Reg) : State.reset.reg r = 0#16 := by cases r <;> rfl

/-- Settles O28, by the register file's read after write. -/
theorem registersAreEightIndependentWords : Obligations.RegistersAreEightIndependentWords := by
  unfold Obligations.RegistersAreEightIndependentWords
  refine ⟨Reg.bits_ofBits, Reg.ofBits_bits, fun s r q v => ⟨?_, fun hq => ?_⟩, State.reg_reset⟩
  · rw [State.reg_setReg, if_pos rfl]
  · rw [State.reg_setReg, if_neg hq]

/-- Settles O32: `reset()` differs from creation in the pending answers only. -/
theorem resetZeroesEverything : Obligations.ResetZeroesEverything :=
  ⟨fun _ => rfl, State.reg_reset, rfl, rfl, fun _ => ⟨fun _ => rfl, State.reg_reset, rfl, rfl⟩⟩

/-- With no flag set no BR is taken. -/
theorem branchTaken_reset (n z p : Bool) : branchTaken n z p State.reset.flags = false := by
  simp [branchTaken, State.reset]

/-- A BR that is not taken only reports. -/
theorem exec_br_not_taken {n z p : Bool} {off9 : Int} {s : State} (h : branchTaken n z p s.flags = false) :
    exec (.br n z p off9) s = returnNormal s := by
  show execBr n z p off9 s = _
  simp [execBr, h]

/-- Settles O33: the first step computes; with no flag set the condition of a BR is false. -/
theorem noBranchIsTakenAfterReset : Obligations.NoBranchIsTakenAfterReset := by
  unfold Obligations.NoBranchIsTakenAfterReset
  refine ⟨rfl, fun n z p off9 s hs => ?_⟩
  have h : branchTaken n z p s.flags = false := by rw [hs, branchTaken_reset]
  exact ⟨_, exec_br_not_taken h, by simp [OnlySetsPc, SameRegs, SameMemory]⟩

end Sys2Proof.Machine
end

section
/-! Proofs: the memory an instruction writes, and the instructions that do not touch it (R20, R24, R25, R26, R33). -/

namespace Sys2Proof.Machine

/-- A write sets one word and leaves every other as it was (R24). -/
theorem State.memWrite_storesWord (s : State) (a v : Word) : StoresWord a v s (s.memWrite a v) := by
  refine ⟨?_, fun b hb => ?_⟩
  · rw [State.memRead_memWrite, if_pos rfl]
  · rw [State.memRead_memWrite, if_neg hb]

/-- Settles O29, by the rules of a memory write. -/
theorem memWriteSetsOneWord : Obligations.MemWriteSetsOneWord :=
  fun s a v => ⟨s.memWrite_storesWord a v, rfl, rfl, rfl⟩

/-- Settles O31: `EA` refuses exactly the sums that are no address, and what it gives is the sum. -/
theorem addressCalculatorNeverWraps : Obligations.AddressCalculatorNeverWraps := by
  unfold Obligations.AddressCalculatorNeverWraps
  intro b o s k
  cases hea : ea b o with
  | none =>
    have hout := ea_eq_none.1 hea
    exact ⟨fun hin => by omega, fun _ => ⟨rfl, rfl⟩⟩
  | some a =>
    have hsum := ea_eq_some.1 hea
    exact ⟨fun _ => ⟨a, rfl, hsum, rfl⟩, fun hout => by have := a.isLt; omega⟩

/-! ### What an instruction that completes does to memory -/

section Stores
variable {i : Instr} {s t : State}

/-- An instruction with a store target has stored its register there, and done nothing else. -/
theorem Done.eq_of_store {a : Word} {r : Reg} (hd : Done i s t) (h : storeTarget i s = some (a, r)) :
    t = (s.memWrite a (s.reg r)).setOutcome .normal := by
  cases hd with
  | store b q hb => cases hb.symm.trans h; rfl
  | result _ _ _ hs => cases hs.symm.trans h
  | stay _ _ _ _ hi | branch _ _ _ _ _ hi | jump _ hi | halt _ _ _ hi | resume _ _ _ _ hi => subst hi; cases h

/-- Without a store target memory stays, a TRAP's service apart. -/
theorem Done.mem_of_no_store (hd : Done i s t) (h : storeTarget i s = none) (hi : isTrap i = false) :
    t.mem = s.mem := by
  cases hd with
  | store _ _ hs => cases hs.symm.trans h
  | result | stay | branch | jump => rfl
  | halt _ _ _ ht | resume _ _ _ _ ht => subst ht; cases hi

end Stores

/-- A step that stored: the state it leaves. -/
theorem step_eq_of_store {s t : State} {a : Word} {r : Reg} (h : step s = .next t)
    (hst : storeTarget (decode (s.memRead s.pc)) (s.setPc (s.pc + 1)) = some (a, r)) :
    t = ((s.setPc (s.pc + 1)).memWrite a (s.reg r)).setOutcome .normal :=
  (step_next h).2.eq_of_store hst

/-- Settles O45, from what a store and the lack of one do to memory. -/
theorem onlyStoresWriteMemory : Obligations.OnlyStoresWriteMemory := by
  unfold Obligations.OnlyStoresWriteMemory
  intro s t h
  refine ⟨fun a r hst => ?_, fun hst hi a => ?_⟩
  · rw [step_eq_of_store h hst]
    exact (s.setPc (s.pc + 1)).memWrite_storesWord a (s.reg r)
  · have hmem : t.mem = s.mem := (step_next h).2.mem_of_no_store hst hi
    rw [State.memRead, hmem, State.memRead]

/-- Settles O46: the next fetch reads the stored word, and the step that stored it ran the word fetched before. -/
theorem nextFetchSeesTheStore : Obligations.NextFetchSeesTheStore := by
  unfold Obligations.NextFetchSeesTheStore
  intro s t r h
  refine ⟨fun hst hpc => ?_, fun hst => ?_⟩
  · have hword : t.memRead t.pc = s.reg r := ((onlyStoresWriteMemory s t h).1 t.pc r hst).1
    rw [step_below hpc, hword]
  · exact ⟨((onlyStoresWriteMemory s t h).1 s.pc r hst).1, by rw [step_eq_of_store h hst]; rfl⟩

/-! ### The instructions that do not touch memory -/

/-- How the answers of an instruction that does not touch memory are related, from `s` and from `s` with the memory
`m`. -/
def MemoryUnread (s : State) (m : Memory) (x y : Result) : Prop :=
  (∃ t, x = .next t ∧ t.mem = s.mem ∧ y = .next { t with mem := m }) ∨
  ∃ t, x = .fault (.addressSpaceViolation t) ∧ t.mem = s.mem ∧ y = .fault (.addressSpaceViolation { t with mem := m })

section Endings
variable (s : State) (m : Memory)

theorem memoryUnread_writeResult (d : Reg) (v : Word) :
    MemoryUnread s m (writeResult d v s) (writeResult d v { s with mem := m }) :=
  .inl ⟨_, rfl, rfl, rfl⟩

theorem memoryUnread_returnNormal : MemoryUnread s m (returnNormal s) (returnNormal { s with mem := m }) :=
  .inl ⟨_, rfl, rfl, rfl⟩

theorem memoryUnread_withAddress (a? : Option Word) {k l : Word → Result} (h : ∀ a, MemoryUnread s m (k a) (l a)) :
    MemoryUnread s m (withAddress a? s k) (withAddress a? { s with mem := m } l) := by
  cases a? with
  | none => exact .inr ⟨_, rfl, rfl, rfl⟩
  | some a => exact h a

theorem memoryUnread_execBr (n z p : Bool) (off9 : Int) :
    MemoryUnread s m (execBr n z p off9 s) (execBr n z p off9 { s with mem := m }) := by
  unfold execBr
  cases branchTaken n z p s.flags with
  | false => exact memoryUnread_returnNormal s m
  | true => exact memoryUnread_withAddress s m _ fun a => memoryUnread_returnNormal (s.setPc a) m

end Endings

/-- Settles O47: each of the six ends in one of the ways above, with operands that do not depend on memory. -/
theorem operateAndTransferIgnoreMemory : Obligations.OperateAndTransferIgnoreMemory := by
  unfold Obligations.OperateAndTransferIgnoreMemory
  intro i s m hi
  show MemoryUnread s m (exec i s) (exec i { s with mem := m })
  cases i with
  | addReg | addImm | andReg | andImm | notReg => exact memoryUnread_writeResult s m _ _
  | lea reg off9 => exact memoryUnread_withAddress s m _ fun a => memoryUnread_writeResult s m reg a
  | br n z p off9 => exact memoryUnread_execBr s m n z p off9
  | jmp base => exact memoryUnread_returnNormal (s.setPc (s.reg base)) m
  | ld | st | ldi | sti | ldr | str | trap | undefined0100 | undefined1000 | undefined1101 =>
    simp [Instr.opcode] at hi

end Sys2Proof.Machine
end

section
/-! Proofs: fields of a word, and words put together from fields (R35, R36, R45). -/

namespace Sys2Proof

/-! ### The extractor on placed and masked words -/

/-- The extractor as arithmetic (R35). -/
theorem toNat_field (w : Word) (p k : Nat) : (field w p k).toNat = w.toNat / 2 ^ (p - 1) % 2 ^ k := by
  rw [field, BitVec.extractLsb'_toNat, Nat.shiftRight_eq_div_pow]

/-- A placed field reads back. -/
@[simp] theorem field_place_same {k : Nat} (p : Nat) (f : BitVec k) (h : p - 1 + k ≤ 16) :
    field (place p f) p k = f := by
  apply BitVec.eq_of_getLsbD_eq
  intro i hi
  rw [getLsbD_field _ _ _ _ hi, getLsbD_place _ _ _ (by omega)]
  simp

/-- A placed field leaves every field beside it clear. -/
@[simp] theorem field_place_disjoint {j k : Nat} (p q : Nat) (f : BitVec j) (hq : q - 1 + k ≤ 16)
    (h : p - 1 + j ≤ q - 1 ∨ q - 1 + k ≤ p - 1) : field (place p f) q k = 0#k := by
  apply BitVec.eq_of_getLsbD_eq
  intro i hi
  rw [getLsbD_field _ _ _ _ hi, getLsbD_place _ _ _ (by omega)]
  rcases h with hlow | hhigh
  · simp [BitVec.getLsbD_of_ge f (q - 1 + i - (p - 1)) (by omega)]
  · simp [show ¬ p - 1 ≤ q - 1 + i by omega]

/-- A mask that covers a field does not change it. -/
theorem field_and_mask {w mask : Word} {p k : Nat} (h : field mask p k = BitVec.allOnes k) :
    field (w &&& mask) p k = field w p k := by
  rw [field, BitVec.extractLsb'_and, ← field, ← field, h, BitVec.and_allOnes]

/-- Words that agree under a mask agree in every field it covers. -/
theorem field_eq_of_and_eq {v w mask : Word} (h : v &&& mask = w &&& mask) {p k : Nat}
    (hmask : field mask p k = BitVec.allOnes k) : field w p k = field v p k := by
  rw [← field_and_mask hmask, ← h, field_and_mask hmask]

/-- A field put back at its own position gives the word's own bits there. -/
theorem place_field (w : Word) (p k : Nat) : place p (field w p k) = w &&& place p (BitVec.allOnes k) := by
  apply BitVec.eq_of_getLsbD_eq
  intro i hi
  rw [BitVec.getLsbD_and, getLsbD_place _ _ _ hi, getLsbD_place _ _ _ hi, BitVec.getLsbD_allOnes]
  by_cases hik : p - 1 ≤ i ∧ i - (p - 1) < k
  · obtain ⟨hp, hk⟩ := hik
    rw [getLsbD_field _ _ _ _ hk, Nat.add_sub_cancel' hp]
    simp [hp, hk]
  · by_cases hp : p - 1 ≤ i
    · have hk : k ≤ i - (p - 1) := by omega
      simp [BitVec.getLsbD_of_ge _ _ hk, Nat.not_lt.2 hk]
    · simp [hp]

/-! ### The three operand kinds: condition bits, registers, signed fields -/

@[simp] theorem ofBool_beq_one (b : Bool) : (BitVec.ofBool b == 1#1) = b := by cases b <;> rfl

theorem placeFlag_flagField (w : Word) (p : Nat) : placeFlag p (flagField w p) = place p (field w p 1) := by
  have h : ∀ b : BitVec 1, BitVec.ofBool (b == 1#1) = b := by decide
  rw [placeFlag, flagField, h]

theorem placeReg_regField (w : Word) (p : Nat) : placeReg p (regField w p) = place p (field w p 3) := by
  rw [placeReg, regField, Reg.bits_ofBits]

theorem placeSigned_sext {k : Nat} (f : BitVec (k + 1)) : placeSigned (k + 1) (sext f) = place 1 f := by
  rw [placeSigned, sext_eq_toInt, BitVec.ofInt_toInt]

/-- The range of a sign-extended field (R36). -/
theorem sext_bounds {k : Nat} (f : BitVec (k + 1)) : -2 ^ k ≤ sext f ∧ sext f < 2 ^ k := by
  rw [sext_eq_toInt]
  exact ⟨f.le_toInt, f.toInt_lt⟩

/-- An integer in that range is the sign extension of its field (R48). -/
theorem sext_ofInt {k : Nat} {x : Int} (hlow : -2 ^ k ≤ x) (hhigh : x < 2 ^ k) : sext (BitVec.ofInt (k + 1) x) = x := by
  rw [sext_eq_toInt, BitVec.toInt_ofInt_eq_self (Nat.succ_pos k) hlow hhigh]

theorem fitsImm5_iff {x : Int} : fitsImm5 x = true ↔ -2 ^ 4 ≤ x ∧ x < 2 ^ 4 := by
  simp only [fitsImm5, decide_eq_true_eq]
  omega

theorem fitsOffset6_iff {x : Int} : fitsOffset6 x = true ↔ -2 ^ 5 ≤ x ∧ x < 2 ^ 5 := by
  simp only [fitsOffset6, decide_eq_true_eq]
  omega

theorem fitsPcoffset9_iff {x : Int} : fitsPcoffset9 x = true ↔ -2 ^ 8 ≤ x ∧ x < 2 ^ 8 := by
  simp only [fitsPcoffset9, decide_eq_true_eq]
  omega

theorem sext_ofInt_of_fitsImm5 {x : Int} (h : fitsImm5 x = true) : sext (BitVec.ofInt 5 x) = x :=
  sext_ofInt (fitsImm5_iff.1 h).1 (fitsImm5_iff.1 h).2

theorem sext_ofInt_of_fitsOffset6 {x : Int} (h : fitsOffset6 x = true) : sext (BitVec.ofInt 6 x) = x :=
  sext_ofInt (fitsOffset6_iff.1 h).1 (fitsOffset6_iff.1 h).2

theorem sext_ofInt_of_fitsPcoffset9 {x : Int} (h : fitsPcoffset9 x = true) : sext (BitVec.ofInt 9 x) = x :=
  sext_ofInt (fitsPcoffset9_iff.1 h).1 (fitsPcoffset9_iff.1 h).2

theorem fitsImm5_imm5 (w : Word) : fitsImm5 (imm5 w) = true := fitsImm5_iff.2 (sext_bounds _)
theorem fitsOffset6_offset6 (w : Word) : fitsOffset6 (offset6 w) = true := fitsOffset6_iff.2 (sext_bounds _)
theorem fitsPcoffset9_pcoffset9 (w : Word) : fitsPcoffset9 (pcoffset9 w) = true := fitsPcoffset9_iff.2 (sext_bounds _)

end Sys2Proof
end

section
/-! Proofs: decoding gives an encoded instruction back (R34 to R48). -/

namespace Sys2Proof
open Sys2Proof.Laws.OpcodeField (field_or)

/-- The family OpcodeField for every instruction: its word carries its opcode value (R42). -/
theorem field_opcode_encodeWith (m : OpcodeMap) (i : Instr) : field (encodeWith m i) 13 4 = m.bits i.opcode := by
  cases i with
  | br n z p off9 => exact Laws.OpcodeField.br n z p off9 m
  | addReg dst src1 src2 => exact Laws.OpcodeField.addReg dst src1 src2 m
  | addImm dst src1 imm => exact Laws.OpcodeField.addImm dst src1 imm m
  | ld reg off9 => exact Laws.OpcodeField.ld reg off9 m
  | st reg off9 => exact Laws.OpcodeField.st reg off9 m
  | andReg dst src1 src2 => exact Laws.OpcodeField.andReg dst src1 src2 m
  | andImm dst src1 imm => exact Laws.OpcodeField.andImm dst src1 imm m
  | ldr reg base off6 => exact Laws.OpcodeField.ldr reg base off6 m
  | str reg base off6 => exact Laws.OpcodeField.str reg base off6 m
  | notReg dst src1 => exact Laws.OpcodeField.notReg dst src1 m
  | ldi reg off9 => exact Laws.OpcodeField.ldi reg off9 m
  | sti reg off9 => exact Laws.OpcodeField.sti reg off9 m
  | jmp base => exact Laws.OpcodeField.jmp base m
  | lea reg off9 => exact Laws.OpcodeField.lea reg off9 m
  | trap vector => exact Laws.OpcodeField.trap vector m
  | undefined0100 => exact Laws.OpcodeField.undefined0100 m
  | undefined1000 => exact Laws.OpcodeField.undefined1000 m
  | undefined1101 => exact Laws.OpcodeField.undefined1101 m

/-- Below the opcode an encoded word is its operand bits. -/
@[simp] theorem field_encodeWith_operand (m : OpcodeMap) (i : Instr) {p k : Nat} (h : p - 1 + k ≤ 12) :
    field (encodeWith m i) p k = field i.operandBits p k := by
  rw [encodeWith, field_or, field_place_disjoint _ _ _ (by omega) (.inr (by omega)), BitVec.zero_or]

/-- Decoding a well-formed instruction's word: the opcode field dispatches back to the instruction, and every operand is
read from the field it was placed in. -/
theorem decodeWith_encodeWith {m : OpcodeMap} (hm : m.Consistent) {i : Instr} (hi : i.wf = true) :
    decodeWith m (encodeWith m i) = i := by
  have hop : m.ofBits (field (encodeWith m i) 13 4) = i.opcode := by rw [field_opcode_encodeWith, hm.1]
  cases i with
  | br n z p off9 =>
    have hoff := sext_ofInt_of_fitsPcoffset9 hi
    simp [decodeWith, hop, Instr.opcode, Instr.operandBits, field_or, flagField, placeFlag, pcoffset9, placeSigned,
      hoff]
  | ld reg off9 | st reg off9 | ldi reg off9 | sti reg off9 | lea reg off9 =>
    have hoff := sext_ofInt_of_fitsPcoffset9 hi
    simp [decodeWith, hop, Instr.opcode, Instr.operandBits, field_or, regField, placeReg, pcoffset9, placeSigned, hoff]
  | ldr reg base off6 | str reg base off6 =>
    have hoff := sext_ofInt_of_fitsOffset6 hi
    simp [decodeWith, hop, Instr.opcode, Instr.operandBits, field_or, regField, placeReg, offset6, placeSigned, hoff]
  | addImm dst src1 imm | andImm dst src1 imm =>
    have himm := sext_ofInt_of_fitsImm5 hi
    simp [decodeWith, hop, Instr.opcode, Instr.operandBits, field_or, flagField, regField, placeReg, imm5, placeSigned,
      himm]
  | addReg dst src1 src2 | andReg dst src1 src2 =>
    simp [decodeWith, hop, Instr.opcode, Instr.operandBits, field_or, flagField, regField, placeReg]
  | notReg dst src1 => simp [decodeWith, hop, Instr.opcode, Instr.operandBits, field_or, regField, placeReg]
  | jmp base => simp [decodeWith, hop, Instr.opcode, Instr.operandBits, regField, placeReg]
  | trap vector => simp [decodeWith, hop, Instr.opcode, Instr.operandBits]
  | undefined0100 | undefined1000 | undefined1101 => simp [decodeWith, hop, Instr.opcode]

/-- Settles O2: the opcode field and each operand's field read back what was placed there. -/
theorem decodeOfEncodeIsTheInstruction : Obligations.DecodeOfEncodeIsTheInstruction :=
  fun _ hm _ hi => decodeWith_encodeWith hm hi

end Sys2Proof
end

section
/-! Proofs: what a word decodes to, each layout once (R37 to R46). -/

namespace Sys2Proof

/-- What a word decodes to, by its opcode field and, for ADD and AND, its mode bit `w[5]`. -/
inductive DecodesTo (m : OpcodeMap) (w : Word) : Instr → Prop where
  | br (h : m.ofBits (field w 13 4) = .br) :
      DecodesTo m w (.br (flagField w 12) (flagField w 11) (flagField w 10) (pcoffset9 w))
  | addReg (h : m.ofBits (field w 13 4) = .add) (hmode : field w 6 1 = 0#1) :
      DecodesTo m w (.addReg (regField w 10) (regField w 7) (regField w 1))
  | addImm (h : m.ofBits (field w 13 4) = .add) (hmode : field w 6 1 = 1#1) :
      DecodesTo m w (.addImm (regField w 10) (regField w 7) (imm5 w))
  | ld (h : m.ofBits (field w 13 4) = .ld) : DecodesTo m w (.ld (regField w 10) (pcoffset9 w))
  | st (h : m.ofBits (field w 13 4) = .st) : DecodesTo m w (.st (regField w 10) (pcoffset9 w))
  | andReg (h : m.ofBits (field w 13 4) = .and) (hmode : field w 6 1 = 0#1) :
      DecodesTo m w (.andReg (regField w 10) (regField w 7) (regField w 1))
  | andImm (h : m.ofBits (field w 13 4) = .and) (hmode : field w 6 1 = 1#1) :
      DecodesTo m w (.andImm (regField w 10) (regField w 7) (imm5 w))
  | ldr (h : m.ofBits (field w 13 4) = .ldr) : DecodesTo m w (.ldr (regField w 10) (regField w 7) (offset6 w))
  | str (h : m.ofBits (field w 13 4) = .str) : DecodesTo m w (.str (regField w 10) (regField w 7) (offset6 w))
  | notReg (h : m.ofBits (field w 13 4) = .not) : DecodesTo m w (.notReg (regField w 10) (regField w 7))
  | ldi (h : m.ofBits (field w 13 4) = .ldi) : DecodesTo m w (.ldi (regField w 10) (pcoffset9 w))
  | sti (h : m.ofBits (field w 13 4) = .sti) : DecodesTo m w (.sti (regField w 10) (pcoffset9 w))
  | jmp (h : m.ofBits (field w 13 4) = .jmp) : DecodesTo m w (.jmp (regField w 7))
  | lea (h : m.ofBits (field w 13 4) = .lea) : DecodesTo m w (.lea (regField w 10) (pcoffset9 w))
  | trap (h : m.ofBits (field w 13 4) = .trap) : DecodesTo m w (.trap (field w 1 8))
  | undefined0100 (h : m.ofBits (field w 13 4) = .undefined0100) : DecodesTo m w .undefined0100
  | undefined1000 (h : m.ofBits (field w 13 4) = .undefined1000) : DecodesTo m w .undefined1000
  | undefined1101 (h : m.ofBits (field w 13 4) = .undefined1101) : DecodesTo m w .undefined1101

/-- The decoder is a function of what these cases read. -/
theorem DecodesTo.decodeWith_eq {m : OpcodeMap} {w : Word} {i : Instr} (h : DecodesTo m w i) : decodeWith m w = i := by
  cases h with
  | addReg h hmode | addImm h hmode | andReg h hmode | andImm h hmode => simp [decodeWith, h, flagField, hmode]
  | _ h => simp [decodeWith, h]

/-- Every word meets one of the cases. -/
theorem exists_decodesTo (m : OpcodeMap) (w : Word) : ∃ i, DecodesTo m w i := by
  have hmode : field w 6 1 = 0#1 ∨ field w 6 1 = 1#1 := BitVec.eq_zero_or_eq_one _
  cases h : m.ofBits (field w 13 4) with
  | add => exact hmode.elim (fun hreg => ⟨_, .addReg h hreg⟩) fun himm => ⟨_, .addImm h himm⟩
  | and => exact hmode.elim (fun hreg => ⟨_, .andReg h hreg⟩) fun himm => ⟨_, .andImm h himm⟩
  | br => exact ⟨_, .br h⟩
  | ld => exact ⟨_, .ld h⟩
  | st => exact ⟨_, .st h⟩
  | ldr => exact ⟨_, .ldr h⟩
  | str => exact ⟨_, .str h⟩
  | not => exact ⟨_, .notReg h⟩
  | ldi => exact ⟨_, .ldi h⟩
  | sti => exact ⟨_, .sti h⟩
  | jmp => exact ⟨_, .jmp h⟩
  | lea => exact ⟨_, .lea h⟩
  | trap => exact ⟨_, .trap h⟩
  | undefined0100 => exact ⟨_, .undefined0100 h⟩
  | undefined1000 => exact ⟨_, .undefined1000 h⟩
  | undefined1101 => exact ⟨_, .undefined1101 h⟩

theorem decodesTo_decodeWith (m : OpcodeMap) (w : Word) : DecodesTo m w (decodeWith m w) := by
  obtain ⟨i, h⟩ := exists_decodesTo m w
  rwa [h.decodeWith_eq]

section Decoded
variable {m : OpcodeMap} {w : Word} {i : Instr}

/-- A decoded instruction belongs to the dispatch target of the word's opcode field (R42). -/
theorem DecodesTo.opcode (h : DecodesTo m w i) : m.ofBits (field w 13 4) = i.opcode := by
  cases h <;> assumption

/-- A signed operand read from a word fits its field. -/
theorem DecodesTo.wf (h : DecodesTo m w i) : i.wf = true := by
  cases h with
  | br | ld | st | ldi | sti | lea => exact fitsPcoffset9_pcoffset9 w
  | ldr | str => exact fitsOffset6_offset6 w
  | addImm | andImm => exact fitsImm5_imm5 w
  | addReg | andReg | notReg | jmp | trap | undefined0100 | undefined1000 | undefined1101 => rfl

end Decoded

end Sys2Proof
end

section
/-! Proofs: the named bits of a word are what its decoding keeps, and all that it reads (R45). -/

namespace Sys2Proof

theorem place_zero {k : Nat} (p : Nat) : place p 0#k = 0#16 := by simp [place]

/-- A word masked by a mask that covers the named bits agrees with the word on them. -/
theorem and_and_eq_of_covers {w mask named : Word} (hmask : mask &&& named = named) :
    w &&& mask &&& named = w &&& named := by
  rw [BitVec.and_assoc, hmask]

/-- So it does with canonical values put in places that are not named. -/
theorem and_or_and_eq_of_covers {w mask canonical named : Word} (hmask : mask &&& named = named)
    (hcanonical : canonical &&& named = 0#16) : (w &&& mask ||| canonical) &&& named = w &&& named := by
  rw [BitVec.and_or_distrib_right, and_and_eq_of_covers hmask, hcanonical, BitVec.or_zero]

theorem field_opcode_namedBits (i : Instr) : field i.namedBits 13 4 = BitVec.allOnes 4 := by
  cases i <;> (simp only [Instr.namedBits]; decide)

section Named
variable {m : OpcodeMap} {v w : Word} {i : Instr}

/-- Encoding again puts the word's own opcode field back. -/
theorem DecodesTo.encodeWith_eq (hm : m.Consistent) (h : DecodesTo m w i) :
    encodeWith m i = place 13 (field w 13 4) ||| i.operandBits := by
  rw [encodeWith, ← h.opcode, hm.2]

/-- Encoding a decoded instruction gives the word's own bits wherever its layout names a field: each operand goes back
to where it was read, so the fields join to one mask that covers the named bits. What the encoder adds of its own
(R45's canonical values) lies outside them. -/
theorem DecodesTo.encodeWith_and_namedBits (hm : m.Consistent) (h : DecodesTo m w i) :
    encodeWith m i &&& i.namedBits = w &&& i.namedBits := by
  rw [h.encodeWith_eq hm]
  cases h with
  | br | ld | st | ldi | sti | lea =>
    simp only [Instr.operandBits, placeFlag_flagField, placeReg_regField, pcoffset9, placeSigned_sext, place_field,
      ← BitVec.and_or_distrib_left, Instr.namedBits]
    exact and_and_eq_of_covers (by decide)
  | ldr | str =>
    simp only [Instr.operandBits, placeReg_regField, offset6, placeSigned_sext, place_field,
      ← BitVec.and_or_distrib_left, Instr.namedBits]
    exact and_and_eq_of_covers (by decide)
  | addImm _ hmode | andImm _ hmode =>
    simp only [Instr.operandBits, ← hmode, placeReg_regField, imm5, placeSigned_sext, place_field,
      ← BitVec.and_or_distrib_left, Instr.namedBits]
    exact and_and_eq_of_covers (by decide)
  | addReg _ hmode | andReg _ hmode =>
    have hclear : w &&& place 6 (BitVec.allOnes 1) = 0#16 := by rw [← place_field, hmode, place_zero]
    -- the mode bit is named and clear: it joins the fields without changing the word
    rw [← BitVec.or_zero (x := _ ||| _), ← hclear]
    simp only [Instr.operandBits, placeReg_regField, place_field, ← BitVec.and_or_distrib_left, Instr.namedBits]
    exact and_and_eq_of_covers (by decide)
  | jmp | trap =>
    simp only [Instr.operandBits, placeReg_regField, place_field, ← BitVec.and_or_distrib_left, Instr.namedBits]
    exact and_and_eq_of_covers (by decide)
  | notReg =>
    simp only [Instr.operandBits, placeReg_regField, place_field, ← BitVec.or_assoc, ← BitVec.and_or_distrib_left,
      Instr.namedBits]
    exact and_or_and_eq_of_covers (by decide) (by decide)
  | undefined0100 | undefined1000 | undefined1101 =>
    simp only [Instr.operandBits, place_field, Instr.namedBits]
    exact and_or_and_eq_of_covers (by decide) (by decide)

/-- A word that agrees on the named bits meets the same case: those bits cover the opcode, the mode bit and every field
that the case reads. -/
theorem DecodesTo.of_and_namedBits_eq (h : DecodesTo m v i) (hw : v &&& i.namedBits = w &&& i.namedBits) :
    DecodesTo m w i := by
  have hop : field v 13 4 = field w 13 4 := field_eq_of_and_eq hw.symm (field_opcode_namedBits i)
  have hfield {p k : Nat} (hnamed : field i.namedBits p k = BitVec.allOnes k) : field v p k = field w p k :=
    field_eq_of_and_eq hw.symm hnamed
  cases h with
  | br h | ld h | st h | ldi h | sti h | lea h =>
    rw [hop] at h
    simp (disch := simp only [Instr.namedBits]; decide) only [flagField, regField, pcoffset9, hfield]
    constructor
    exact h
  | ldr h | str h | notReg h | jmp h | trap h =>
    rw [hop] at h
    simp (disch := simp only [Instr.namedBits]; decide) only [regField, offset6, hfield]
    constructor
    exact h
  | addReg h hmode | addImm h hmode | andReg h hmode | andImm h hmode =>
    rw [hop] at h
    rw [hfield (by simp only [Instr.namedBits]; decide)] at hmode
    simp (disch := simp only [Instr.namedBits]; decide) only [regField, imm5, hfield]
    constructor
    · exact h
    · exact hmode
  | undefined0100 h | undefined1000 h | undefined1101 h =>
    rw [hop] at h
    constructor
    exact h

end Named

/-- Settles O3: a word's decoding is well formed and keeps its named bits. -/
theorem encodeOfDecodeKeepsNamedBits : Obligations.EncodeOfDecodeKeepsNamedBits :=
  fun m hm w => ⟨(decodesTo_decodeWith m w).wf, (decodesTo_decodeWith m w).encodeWith_and_namedBits hm⟩

/-- Settles O4: the decoding reads named bits only. -/
theorem ignoredBitsDoNotMatter : Obligations.IgnoredBitsDoNotMatter :=
  fun v _ h => ((decodesTo_decodeWith standardOpcodeMap v).of_and_namedBits_eq h).decodeWith_eq

end Sys2Proof
end

section
/-! Proofs: the extractor, the sign-extender, the undefined opcodes, and a word of each layout (R35, R36, R44). -/

namespace Sys2Proof.Machine

/-- Settles O1: each word computes. -/
theorem wordsOfEachLayoutDecode : Obligations.WordsOfEachLayoutDecode := by
  unfold Obligations.WordsOfEachLayoutDecode
  decide

/-- Settles O5: a slice is a quotient by a power of two, cut to its low bits. -/
theorem extractorIsTheSlice : Obligations.ExtractorIsTheSlice :=
  fun w p k _ _ _ => ⟨toNat_field w p k, getLsbD_field w p k⟩

/-! ### The sign-extender -/

theorem sext_of_lt {k : Nat} {f : BitVec k} (h : f.toNat < 2 ^ (k - 1)) : sext f = f.toNat := by
  rw [sext, if_pos h]

theorem sext_of_le {k : Nat} {f : BitVec k} (h : 2 ^ (k - 1) ≤ f.toNat) : sext f = f.toNat - 2 ^ k := by
  rw [sext, if_neg (Nat.not_lt.2 h)]

/-- The pattern of a sign-extended field copies the field's top bit into every higher bit. -/
theorem getLsbD_bv16_sext {k : Nat} (f : BitVec (k + 1)) {i : Nat} (hi : i < 16) :
    (bv16 (sext f)).getLsbD i = if i < k + 1 then f.getLsbD i else f.getLsbD k := by
  have hpattern : bv16 (sext f) = f.signExtend 16 := by rw [sext_eq_toInt]; rfl
  rw [hpattern, BitVec.getLsbD_signExtend, BitVec.msb_eq_getLsbD_last]
  simp [hi]

/-- A decoded signed operand is the sign extension of the word's low bits, as many as its field has. -/
theorem signedOperand_of_decodesTo {m : OpcodeMap} {w : Word} {i : Instr} {k : Nat} {x : Int} (h : DecodesTo m w i)
    (hx : signedOperand i = some (k, x)) : x = sext (field w 1 k) := by
  cases h with
  | br | addImm | andImm | ld | st | ldi | sti | lea | ldr | str => cases hx; rfl
  | addReg | andReg | notReg | jmp | trap | undefined0100 | undefined1000 | undefined1101 => cases hx

/-- Settles O6: the sign extension is the two's-complement reading, and the decoder uses it for every signed operand. -/
theorem signExtension : Obligations.SignExtension := by
  unfold Obligations.SignExtension
  refine ⟨fun k f hk => ⟨sext_of_lt, sext_of_le, fun _ i hi => ?_⟩, fun f => ?_, fun f => ?_, fun f => ?_, by decide,
    fun w k x hx => signedOperand_of_decodesTo (decodesTo_decodeWith standardOpcodeMap w) hx⟩
  · obtain ⟨j, rfl⟩ := Nat.exists_eq_add_of_le' hk
    exact getLsbD_bv16_sext f hi
  · simpa [fitsImm5] using fitsImm5_iff.2 (sext_bounds f)
  · simpa [fitsOffset6] using fitsOffset6_iff.2 (sext_bounds f)
  · simpa [fitsPcoffset9] using fitsPcoffset9_iff.2 (sext_bounds f)

/-! ### The undefined opcodes -/

/-- The opcode field of a word whose top four bits are known. -/
theorem field_opcode_of_and_eq {w c : Word} (h : w &&& 0xF000#16 = c) : field w 13 4 = field c 13 4 := by
  rw [← h, field_and_mask (by decide)]

/-- Settles O26: the opcode field dispatches to the failure, and a failure only reports. -/
theorem undefinedOpcodesAreDecodeErrors : Obligations.UndefinedOpcodesAreDecodeErrors := by
  unfold Obligations.UndefinedOpcodesAreDecodeErrors
  refine ⟨fun w => ⟨fun h => ?_, fun h => ?_, fun h => ?_⟩, fun s => ⟨?_, ?_, ?_⟩⟩
  · exact (DecodesTo.undefined0100 (by rw [field_opcode_of_and_eq h]; rfl)).decodeWith_eq
  · exact (DecodesTo.undefined1000 (by rw [field_opcode_of_and_eq h]; rfl)).decodeWith_eq
  · exact (DecodesTo.undefined1101 (by rw [field_opcode_of_and_eq h]; rfl)).decodeWith_eq
  all_goals exact ⟨_, rfl, setOutcome_onlyReports .decodeError s⟩

end Sys2Proof.Machine
end

section
/-! Proofs: how a step ends (R50 to R56). -/

namespace Sys2Proof.Machine

/-- Settles O35: the step at the top, and the step below it. -/
theorem stepRunsTheDecodedInstruction : Obligations.StepRunsTheDecodedInstruction :=
  fun s => ⟨step_below, fun hpc => ⟨_, step_top hpc, setOutcome_onlyReports _ s⟩⟩

/-- An instruction that completes returns `Normal`, or is a TRAP that returns `Halted`. -/
theorem Done.outcome {i : Instr} {s t : State} (hd : Done i s t) :
    t.outcome = .normal ∨ (t.outcome = .halted ∧ isTrap i = true) := by
  cases hd with
  | result | store | stay | branch | jump | resume => exact .inl rfl
  | halt v _ _ h => exact .inr ⟨rfl, isTrap_iff.2 ⟨v, h⟩⟩

/-- Settles O38: at the top the violation; below it one way per way an instruction completes or fails. -/
theorem stepEndsInOneOfFiveOutcomes : Obligations.StepEndsInOneOfFiveOutcomes := by
  unfold Obligations.StepEndsInOneOfFiveOutcomes
  intro s i
  by_cases hpc : s.pc = 0xFFFF#16
  · exact .inr (.inr (.inr (.inl ⟨_, step_top hpc, rfl, .inl hpc⟩)))
  · rw [step_below hpc]
    rcases exec_cases i (s.setPc (s.pc + 1)) with ⟨t, ht, hd⟩ | ⟨f, hf, hfail⟩
    · rcases hd.outcome with ho | ⟨ho, hi⟩
      · exact .inl ⟨t, ht, ho, hpc⟩
      · exact .inr (.inl ⟨t, ht, ho, hpc, hi⟩)
    · cases hfail with
      | undefined hi => exact .inr (.inr (.inl ⟨_, hf, rfl, hpc, hi⟩))
      | violation x hx => exact .inr (.inr (.inr (.inl ⟨_, hf, rfl, .inr ⟨x, hx⟩⟩)))
      | unregistered v _ hi => exact .inr (.inr (.inr (.inr (.inl ⟨_, hf, rfl, hpc, isTrap_iff.2 ⟨v, hi⟩⟩))))
      | never v _ hi => exact .inr (.inr (.inr (.inr (.inr ⟨_, hf, hpc, isTrap_iff.2 ⟨v, hi⟩⟩))))

/-- A step that fails is the fetch at the top, or its instruction's failure below it. -/
theorem step_fault {s : State} {f : Fault} (h : step s = .fault f) :
    (s.pc = 0xFFFF#16 ∧ f = .addressSpaceViolation (s.setOutcome .addressSpaceViolation)) ∨
      (s.pc ≠ 0xFFFF#16 ∧ Failed (decode (s.memRead s.pc)) (s.setPc (s.pc + 1)) f) := by
  by_cases hpc : s.pc = 0xFFFF#16
  · rw [step_top hpc] at h
    cases h
    exact .inl ⟨hpc, rfl⟩
  · rw [step_below hpc] at h
    exact .inr ⟨hpc, exec_fault h⟩

section Errors
variable {s t : State}

/-- A decode error leaves the incremented pc and only reports. -/
theorem step_decodeError (h : step s = .fault (.decodeError t)) : OnlyReports .decodeError (s.setPc (s.pc + 1)) t := by
  rcases step_fault h with ⟨-, ⟨⟩⟩ | ⟨-, ⟨⟩⟩
  exact setOutcome_onlyReports _ _

/-- A violation only reports: in the fetch at 65535 before the increment, below it after. -/
theorem step_addressSpaceViolation (h : step s = .fault (.addressSpaceViolation t)) :
    (s.pc = 0xFFFF#16 ∧ OnlyReports .addressSpaceViolation s t) ∨
      (s.pc ≠ 0xFFFF#16 ∧ OnlyReports .addressSpaceViolation (s.setPc (s.pc + 1)) t) := by
  rcases step_fault h with ⟨hpc, ⟨⟩⟩ | ⟨hpc, ⟨⟩⟩
  · exact .inl ⟨hpc, setOutcome_onlyReports _ _⟩
  · exact .inr ⟨hpc, setOutcome_onlyReports _ _⟩

/-- A TRAP without a service has entered the trap: it leaves the return address in `R[7]`. -/
theorem step_trapUnregistered (h : step s = .fault (.trapUnregistered t)) :
    ∃ p, t = ((trapEntry (s.setPc (s.pc + 1))).setServices p).setOutcome .trapUnregistered := by
  rcases step_fault h with ⟨-, ⟨⟩⟩ | ⟨-, ⟨⟩⟩
  exact ⟨_, rfl⟩

end Errors

/-- Settles O41, error by error. -/
theorem errorsWriteNothingElse : Obligations.ErrorsWriteNothingElse := by
  unfold Obligations.ErrorsWriteNothingElse
  intro s t
  refine ⟨step_decodeError, step_addressSpaceViolation, fun h => ?_⟩
  obtain ⟨p, rfl⟩ := step_trapUnregistered h
  simp +contextual [trapEntry, SameRegsBut]

section Service
variable {svc : TrapService} {s : State} {r : Result}

/-- Where no TRAP runs, the step under a service is the model's. -/
theorem stepUnder_of_no_trap (h : s.pc = 0xFFFF#16 ∨ isTrap (decode (s.memRead s.pc)) = false) :
    StepUnder svc s r ↔ r = step s := by
  by_cases hpc : s.pc = 0xFFFF#16
  · rw [stepUnder_top hpc, step_top hpc]
  · rw [stepUnder_below hpc, step_below hpc, execUnder_of_not_trap (h.resolve_left hpc)]

/-- Where a TRAP runs, the step has the service's results. -/
theorem stepUnder_trap {v : BitVec 8} (hpc : s.pc ≠ 0xFFFF#16) (hv : decode (s.memRead s.pc) = .trap v) :
    StepUnder svc s r ↔ TrapUnder svc v (s.setPc (s.pc + 1)) r := by
  rw [stepUnder_below hpc, hv, execUnder_trap]

end Service

/-- Settles O53: a service is asked where the instruction is a TRAP, and nowhere else. -/
theorem serviceIsAskedAtEveryTrap : Obligations.ServiceIsAskedAtEveryTrap :=
  fun _ _ _ => ⟨stepUnder_of_no_trap, fun _ => stepUnder_trap⟩

end Sys2Proof.Machine
end

section
/-! Proofs: `run()`, one step at a time (R57). -/

namespace Sys2Proof.Machine

section Run
variable {s t : State}

theorem driverStep_next (h : step s = .next t) : driverStep s = some t := by rw [driverStep, h, stateLeft_next]

theorem driverStep_fault {f : Fault} (h : step s = .fault f) : driverStep s = f.left := by
  rw [driverStep, h, stateLeft_fault]

/-- Only a TRAP whose service never answers leaves the driver without a state. -/
theorem step_of_driverStep_none (h : driverStep s = none) :
    ∃ u, step s = .fault (.trapNeverAnswers u) ∧ s.pc ≠ 0xFFFF#16 ∧ isTrap (decode (s.memRead s.pc)) = true := by
  rcases stepEndsInOneOfFiveOutcomes s with
    ⟨t, ht, -⟩ | ⟨t, ht, -⟩ | ⟨t, ht, -⟩ | ⟨t, ht, -⟩ | ⟨t, ht, -⟩ | hnever
  case inr.inr.inr.inr.inr => exact hnever
  all_goals
    rw [driverStep, ht] at h
    cases h

theorem runFor_succ_stuck (h : driverStep s = none) (k : Nat) : runFor (k + 1) s = .stuck := by
  rw [runFor, h]

theorem runFor_succ_normal (h : driverStep s = some t) (ht : t.outcome = .normal) (k : Nat) :
    runFor (k + 1) s = runFor k t := by
  simp only [runFor, h, if_pos ht]

theorem runFor_succ_returned (h : driverStep s = some t) (ht : t.outcome ≠ .normal) (k : Nat) :
    runFor (k + 1) s = .returned t := by
  simp only [runFor, h, if_neg ht]

end Run

/-- `j` more steps of a run, from where it stands: only a running one goes on. -/
def RunResult.goOn (j : Nat) : RunResult → RunResult
  | .returned t => .returned t
  | .running t => runFor j t
  | .stuck => .stuck

/-- A longer run is a shorter one that goes on. -/
theorem runFor_add (k j : Nat) (s : State) : runFor (k + j) s = (runFor k s).goOn j := by
  induction k, s using runFor.induct with
  | case1 s => rw [Nat.zero_add]; rfl
  | case2 k s hs => rw [Nat.succ_add, runFor_succ_stuck hs, runFor_succ_stuck hs]; rfl
  | case3 k s t hs ht ih => rw [Nat.succ_add, runFor_succ_normal hs ht, runFor_succ_normal hs ht, ih]
  | case4 k s t hs ht => rw [Nat.succ_add, runFor_succ_returned hs ht, runFor_succ_returned hs ht]; rfl

/-- `run()` does not return with `Normal`. -/
theorem outcome_of_runFor_returned {k : Nat} {s t : State} (h : runFor k s = .returned t) : t.outcome ≠ .normal := by
  induction k, s using runFor.induct with
  | case1 s => cases h
  | case2 k s hs => rw [runFor_succ_stuck hs] at h; cases h
  | case3 k s u hs hu ih => exact ih (by rwa [runFor_succ_normal hs hu] at h)
  | case4 k s u hs hu =>
    rw [runFor_succ_returned hs hu] at h
    cases h
    exact hu

/-- A step whose outcome is not `Normal` is returned, with that outcome. -/
theorem runFor_succ_of_outcome {s t : State} {o : StepOutcome} (h : driverStep s = some t) (hto : t.outcome = o)
    (ho : o ≠ .normal) (k : Nat) : t.outcome = o ∧ runFor (k + 1) s = .returned t :=
  ⟨hto, runFor_succ_returned h (hto ▸ ho) k⟩

/-- Settles O52: an equation of the run for each way a step ends, and a longer look at a run. -/
theorem runReturnsAtTheFirstOtherOutcome : Obligations.RunReturnsAtTheFirstOtherOutcome := by
  unfold Obligations.RunReturnsAtTheFirstOtherOutcome
  intro k s t
  refine ⟨rfl, fun h ho => ?_, fun h ho => ?_, fun h => ?_, fun h => ?_, fun h => ?_, fun h => ?_, fun h => ?_,
    fun h j => ?_, fun h j => ?_⟩
  · exact runFor_succ_normal (driverStep_next h) ho k
  · exact (runFor_succ_of_outcome (driverStep_next h) ho (by decide) k).2
  · obtain ⟨ho, -⟩ := step_decodeError h
    exact runFor_succ_of_outcome (driverStep_fault h) ho (by decide) k
  · have ho : t.outcome = .addressSpaceViolation := by
      rcases step_addressSpaceViolation h with ⟨-, ho, -⟩ | ⟨-, ho, -⟩ <;> exact ho
    exact runFor_succ_of_outcome (driverStep_fault h) ho (by decide) k
  · have ho : t.outcome = .trapUnregistered := by
      obtain ⟨p, rfl⟩ := step_trapUnregistered h
      rfl
    exact runFor_succ_of_outcome (driverStep_fault h) ho (by decide) k
  · exact runFor_succ_stuck (driverStep_fault h) k
  · exact ⟨outcome_of_runFor_returned h, fun j => by rw [runFor_add, h]; rfl⟩
  · rw [runFor_add, h]; rfl
  · rw [runFor_add, h]; rfl

end Sys2Proof.Machine
end

section
/-! Proofs: the effects of the pending answers are the changes R86 permits to a service (log entry 2). -/

namespace Sys2Proof.Machine

/-! ### A register or word reads as the last of its writes -/

theorem getD_lastWrite_cons {α : Type} [DecidableEq α] (k : α) (v : Word) (ws : List (α × Word)) (a : α) (u : Word) :
    (lastWrite ((k, v) :: ws) a).getD u = (lastWrite ws a).getD (if a = k then v else u) := by
  rw [lastWrite]
  cases lastWrite ws a with
  | some => rfl
  | none =>
    by_cases h : k = a
    · simp [h]
    · simp [h, Ne.symm h]

theorem State.reg_setRegs (ws : List (Reg × Word)) (s : State) (r : Reg) :
    (s.setRegs ws).reg r = (lastWrite ws r).getD (s.reg r) := by
  induction ws generalizing s with
  | nil => rfl
  | cons w ws ih =>
    rw [getD_lastWrite_cons, ← State.reg_setReg]
    exact ih (s.setReg w.1 w.2)

theorem State.memRead_memWrites (ws : List (Word × Word)) (s : State) (a : Word) :
    (s.memWrites ws).memRead a = (lastWrite ws a).getD (s.memRead a) := by
  induction ws generalizing s with
  | nil => rfl
  | cons w ws ih =>
    rw [getD_lastWrite_cons, ← State.memRead_memWrite]
    exact ih (s.memWrite w.1 w.2)

/-- One write to each place of a list. -/
theorem lastWrite_map {α : Type} [DecidableEq α] (f : α → Word) (as : List α) (a : α) :
    lastWrite (as.map fun b => (b, f b)) a = if a ∈ as then some (f a) else none := by
  induction as with
  | nil => rfl
  | cons b as ih =>
    rw [List.map_cons, lastWrite, ih]
    by_cases ha : a ∈ as
    · simp [ha]
    · by_cases hb : b = a
      · subst hb
        simp [ha]
      · simp [ha, hb, Ne.symm hb]

/-! ### What an effect leaves -/

section After
variable (s : State) (e : ServiceEffect)

theorem State.reg_afterService (r : Reg) : (s.afterService e).reg r = (lastWrite e.regs r).getD (s.reg r) := by
  have hregs : (s.afterService e).regs = (s.setRegs e.regs).regs := by
    rw [State.afterService, (State.setFlagState_frame _ _).2.1, (State.memWrites_frame _ _).1]
  rw [State.reg, hregs]
  exact State.reg_setRegs e.regs s r

theorem State.memRead_afterService (a : Word) :
    (s.afterService e).memRead a = (lastWrite e.mem a).getD (s.memRead a) := by
  have hmem : (s.afterService e).mem = ((s.setRegs e.regs).memWrites e.mem).mem := by
    rw [State.afterService, (State.setFlagState_frame _ _).1]
  rw [State.memRead, hmem]
  refine (State.memRead_memWrites e.mem (s.setRegs e.regs) a).trans ?_
  rw [State.memRead, (State.setRegs_frame s e.regs).1, State.memRead]

/-- Every effect is a change R86 permits. -/
theorem State.afterService_permitted : Permitted s (s.afterService e) := by
  obtain ⟨hpc, hservices, houtcome⟩ := State.afterService_frame s e
  exact ⟨hpc, fun h => State.afterService_legal h e, fun h => State.afterService_wf h e, hservices, houtcome⟩

end After

/-! ### The effect that leads to a given state -/

/-- The eight registers. -/
def allRegs : List Reg := [.r0, .r1, .r2, .r3, .r4, .r5, .r6, .r7]

/-- The 65536 addresses. -/
def allWords : List Word := (List.finRange (2 ^ 16)).map BitVec.ofFin

theorem mem_allRegs (r : Reg) : r ∈ allRegs := by cases r <;> decide

theorem mem_allWords (a : Word) : a ∈ allWords := List.mem_map.2 ⟨a.toFin, List.mem_finRange _, rfl⟩

/-- Write every register and every word of memory as `t` has them, and leave the flags of `f`. -/
def effectTo (t : State) (f : FlagState) : ServiceEffect where
  regs := allRegs.map fun r => (r, t.reg r)
  mem := allWords.map fun a => (a, t.memRead a)
  flags := some f

/-- Legal flags are those of one of R14's four flag states. -/
theorem Flags.exists_flagState {f : Flags} (h : f.legal = true) : ∃ g : FlagState, g.flags = f := by
  obtain ⟨n, z, p⟩ := f
  cases n <;> cases z <;> cases p
  case false.false.false => exact ⟨.none, rfl⟩
  case true.false.false => exact ⟨.negative, rfl⟩
  case false.true.false => exact ⟨.zero, rfl⟩
  case false.false.true => exact ⟨.positive, rfl⟩
  all_goals cases h

/-- States in the one form of memory are the same if every place of theirs reads the same. -/
theorem State.eq_of_reads {s t : State} (hs : s.mem.wf) (ht : t.mem.wf) (hmem : SameMemory s t) (hregs : SameRegs s t)
    (hpc : t.pc = s.pc) (hflags : t.flags = s.flags) (hservices : t.services = s.services)
    (houtcome : t.outcome = s.outcome) : t = s := by
  have hmem' : t.mem = s.mem := Memory.eq_of_read_eq ht hs hmem
  have hregs' : t.regs = s.regs := Regs.ext_get hregs
  cases s
  cases t
  simp_all

/-- From a state that meets the invariant, every change R86 permits is an effect. -/
theorem Permitted.exists_effect {s t : State} (h : Permitted s t) (hs : s.Inv) : ∃ e, s.afterService e = t := by
  obtain ⟨hlegal, hwf⟩ := h.inv hs
  obtain ⟨hpc, -, -, hservices, houtcome⟩ := h
  obtain ⟨f, hf⟩ := Flags.exists_flagState hlegal
  obtain ⟨hpc', hservices', houtcome'⟩ := State.afterService_frame s (effectTo t f)
  refine ⟨effectTo t f, State.eq_of_reads hwf (State.afterService_wf hs.2 _) (fun a => ?_) (fun r => ?_)
    (hpc'.trans hpc.symm) hf (hservices'.trans hservices.symm) (houtcome'.trans houtcome.symm)⟩
  · rw [State.memRead_afterService, effectTo, lastWrite_map, if_pos (mem_allWords a), Option.getD_some]
  · rw [State.reg_afterService, effectTo, lastWrite_map, if_pos (mem_allRegs r), Option.getD_some]

end Sys2Proof.Machine
end

section
/-! Proofs: one TRAP and one step, under a service and with an answer pending (R75, R76, R86). -/

namespace Sys2Proof.Machine

/-! ### A TRAP -/

/-- What the core does with an answer does not depend on what else is pending. -/
theorem stateLeft_applyAnswer_setServices (x : TrapAnswer) (s : State) (p : List (BitVec 8 × TrapAnswer)) :
    stateLeft (applyAnswer x (s.setServices p)) = (stateLeft (applyAnswer x s)).map fun t => t.setServices p := by
  cases x with
  | unregistered | never => rfl
  | halt e | resume e a => simp only [applyAnswer, State.afterService_setServices]; rfl

/-- A result of TRAP under a lawful service is what the core does with some answer. -/
theorem TrapUnder.exists_answer {svc : TrapService} {v : BitVec 8} {s : State} {r : Result} (hsvc : svc.Lawful)
    (hs : s.Inv) (h : TrapUnder svc v s r) : ∃ x, r = applyAnswer x (trapEntry s) := by
  obtain ⟨hhalt, hresume⟩ := hsvc v (trapEntry s)
  have hentry : (trapEntry s).Inv := by simpa [trapEntry] using hs
  rcases h with ⟨-, rfl⟩ | ⟨s', ha, rfl⟩ | ⟨s', a, ha, rfl⟩
  · exact ⟨.unregistered, rfl⟩
  · obtain ⟨e, rfl⟩ := (hhalt s' ha).exists_effect hentry
    exact ⟨.halt e, rfl⟩
  · obtain ⟨e, rfl⟩ := (hresume s' a ha).exists_effect hentry
    exact ⟨.resume e a, rfl⟩

/-- Whatever the core does with an answer is a result of TRAP under the most permissive service. -/
theorem trapUnder_anyService {x : TrapAnswer} (hx : x ≠ .never) (v : BitVec 8) (s : State) :
    TrapUnder anyService v s (applyAnswer x (trapEntry s)) := by
  cases x with
  | unregistered => exact .inl ⟨trivial, rfl⟩
  | halt e => exact .inr (.inl ⟨_, State.afterService_permitted _ e, rfl⟩)
  | resume e a => exact .inr (.inr ⟨_, a, State.afterService_permitted _ e, rfl⟩)
  | never => exact absurd rfl hx

/-! ### A step -/

section Step
variable {s : State} {v : BitVec 8}

/-- A step runs a TRAP, or it runs none: at the top, or with another instruction at `pc`. -/
theorem trap_or_no_trap (s : State) :
    (∃ v, s.pc ≠ 0xFFFF#16 ∧ decode (s.memRead s.pc) = .trap v) ∨
      (s.pc = 0xFFFF#16 ∨ isTrap (decode (s.memRead s.pc)) = false) := by
  by_cases hpc : s.pc = 0xFFFF#16
  · exact .inr (.inl hpc)
  · cases hi : isTrap (decode (s.memRead s.pc)) with
    | false => exact .inr (.inr rfl)
    | true =>
      obtain ⟨v, hv⟩ := isTrap_iff.1 hi
      exact .inl ⟨v, hpc, hv⟩

/-- A step that runs no TRAP leaves the same state whatever is pending, and what is pending. -/
theorem driverStep_setServices (h : s.pc = 0xFFFF#16 ∨ isTrap (decode (s.memRead s.pc)) = false)
    (p : List (BitVec 8 × TrapAnswer)) :
    driverStep (s.setServices p) = (driverStep s).map fun t => t.setServices p := by
  by_cases hpc : s.pc = 0xFFFF#16
  · rw [driverStep, driverStep, step_top hpc, step_top (s := s.setServices p) hpc]
    rfl
  · rw [driverStep, driverStep, step_below hpc, step_below (s := s.setServices p) hpc]
    exact stateLeft_exec_setServices p (h.resolve_left hpc) (s.setPc (s.pc + 1))

/-- A step that runs a TRAP takes the next answer pending for its vector. -/
theorem driverStep_trap {x : TrapAnswer} {p : List (BitVec 8 × TrapAnswer)} (hpc : s.pc ≠ 0xFFFF#16)
    (hv : decode (s.memRead s.pc) = .trap v) (hx : takeAnswer v s.services = (x, p)) :
    driverStep s = stateLeft (applyAnswer x ((trapEntry (s.setPc (s.pc + 1))).setServices p)) := by
  rw [driverStep, step_below hpc, hv, exec_trap (s := s.setPc (s.pc + 1)) hx]

/-- With an answer pending first for its vector, a step that runs a TRAP does what the core does with that answer. -/
theorem driverStep_trap_pending (hpc : s.pc ≠ 0xFFFF#16) (hv : decode (s.memRead s.pc) = .trap v) (x : TrapAnswer)
    (p : List (BitVec 8 × TrapAnswer)) :
    driverStep (s.setServices ((v, x) :: p)) =
      (stateLeft (applyAnswer x (trapEntry (s.setPc (s.pc + 1))))).map fun t => t.setServices p := by
  rw [driverStep_trap (s := s.setServices ((v, x) :: p)) hpc hv (takeAnswer_self v x p)]
  exact stateLeft_applyAnswer_setServices x (trapEntry (s.setPc (s.pc + 1))) p

end Step

section Under
variable {svc : TrapService} {s t : State} {a : Result}

/-- A result of a step under a service leaves a state. -/
theorem StepUnder.exists_left (h : StepUnder svc s a) : ∃ t, stateLeft a = some t := by
  rcases trap_or_no_trap s with ⟨v, hpc, hv⟩ | hno
  · rw [stepUnder_trap hpc hv] at h
    rcases h with ⟨-, rfl⟩ | ⟨s', -, rfl⟩ | ⟨s', b, -, rfl⟩ <;> exact ⟨_, rfl⟩
  · obtain rfl := (stepUnder_of_no_trap hno).1 h
    cases hs : driverStep s with
    | some t => exact ⟨t, hs⟩
    | none =>
      obtain ⟨-, -, hpc, hi⟩ := step_of_driverStep_none hs
      rw [hno.resolve_left hpc] at hi
      cases hi

/-- What a step leaves under a lawful service, the model's step leaves with an answer pending before those it keeps. -/
theorem StepUnder.exists_pending (hsvc : svc.Lawful) (hs : s.Inv) (h : StepUnder svc s a) (ha : stateLeft a = some t)
    (p : List (BitVec 8 × TrapAnswer)) : ∃ q, driverStep (s.setServices q) = some (t.setServices p) := by
  rcases trap_or_no_trap s with ⟨v, hpc, hv⟩ | hno
  · obtain ⟨x, rfl⟩ := ((stepUnder_trap hpc hv).1 h).exists_answer hsvc (by simpa using hs)
    exact ⟨(v, x) :: p, by rw [driverStep_trap_pending hpc hv, ha, Option.map_some]⟩
  · obtain rfl := (stepUnder_of_no_trap hno).1 h
    exact ⟨p, by rw [driverStep_setServices hno, driverStep, ha, Option.map_some]⟩

/-- Where a service leaves a step without a result, so does a pending answer that never comes. -/
theorem exists_pending_never (h : ∀ a, ¬ StepUnder svc s a) : ∃ q, driverStep (s.setServices q) = none := by
  rcases trap_or_no_trap s with ⟨v, hpc, hv⟩ | hno
  · exact ⟨[(v, .never)], driverStep_trap_pending hpc hv .never []⟩
  · exact absurd ((stepUnder_of_no_trap hno).2 rfl) (h (step s))

/-- What the model's step leaves, the most permissive service may leave, pending answers apart. -/
theorem exists_stepUnder_anyService (h : driverStep s = some t) :
    ∃ a, StepUnder anyService (s.setServices []) a ∧ stateLeft a = some (t.setServices []) := by
  rcases trap_or_no_trap s with ⟨v, hpc, hv⟩ | hno
  · rcases hx : takeAnswer v s.services with ⟨x, p⟩
    rw [driverStep_trap hpc hv hx] at h
    have hnever : x ≠ .never := by
      rintro rfl
      cases h
    refine ⟨_, (stepUnder_trap (s := s.setServices []) hpc hv).2 (trapUnder_anyService hnever v _), ?_⟩
    have hleft := stateLeft_applyAnswer_setServices x ((trapEntry (s.setPc (s.pc + 1))).setServices p) []
    rw [h] at hleft
    exact hleft
  · refine ⟨_, (stepUnder_of_no_trap (s := s.setServices []) hno).2 rfl, ?_⟩
    have hleft := driverStep_setServices hno []
    rw [h] at hleft
    exact hleft

end Under

end Sys2Proof.Machine
end

section
/-! Proofs: `run()` under a service and `run()` of the model (R57, R86). -/

namespace Sys2Proof.Machine

section Run
variable {svc : TrapService} {k : Nat} {s t : State} {a : Result} {r : RunResult}

theorem RunUnder.succ_normal (h : StepUnder svc s a) (ha : stateLeft a = some t) (ht : t.outcome = .normal)
    (hr : RunUnder svc k t r) : RunUnder svc (k + 1) s r :=
  .inl ⟨a, t, h, ha, by rwa [if_pos ht]⟩

theorem RunUnder.succ_returned (h : StepUnder svc s a) (ha : stateLeft a = some t) (ht : t.outcome ≠ .normal) :
    RunUnder svc (k + 1) s (.returned t) :=
  .inl ⟨a, t, h, ha, by rw [if_neg ht]⟩

/-- The ways a run of `k + 1` steps begins. -/
theorem RunUnder.succ_cases (h : RunUnder svc (k + 1) s r) :
    (∃ a t, StepUnder svc s a ∧ stateLeft a = some t ∧ t.outcome = .normal ∧ RunUnder svc k t r) ∨
      (∃ a t, StepUnder svc s a ∧ stateLeft a = some t ∧ t.outcome ≠ .normal ∧ r = .returned t) ∨
      ((∀ a, ¬ StepUnder svc s a) ∧ r = .stuck) := by
  rcases h with ⟨a, t, hstep, ha, hr⟩ | hstuck
  · by_cases ht : t.outcome = .normal
    · rw [if_pos ht] at hr
      exact .inl ⟨a, t, hstep, ha, ht, hr⟩
    · rw [if_neg ht] at hr
      exact .inr (.inl ⟨a, t, hstep, ha, ht, hr⟩)
  · exact .inr (.inr hstuck)

/-- A run under a service always stands somewhere. -/
theorem exists_runUnder (svc : TrapService) (k : Nat) (s : State) : ∃ r, RunUnder svc k s r := by
  induction k generalizing s with
  | zero => exact ⟨_, rfl⟩
  | succ k ih =>
    by_cases h : ∃ a, StepUnder svc s a
    · obtain ⟨a, ha⟩ := h
      obtain ⟨t, ht⟩ := ha.exists_left
      by_cases ho : t.outcome = .normal
      · obtain ⟨r, hr⟩ := ih t
        exact ⟨r, .succ_normal ha ht ho hr⟩
      · exact ⟨_, .succ_returned ha ht ho⟩
    · exact ⟨.stuck, .inr ⟨not_exists.1 h, rfl⟩⟩

/-- A run under a lawful service is a run of the model: the answers its steps take are pending in their order. -/
theorem RunUnder.exists_pending (hsvc : svc.Lawful) (hs : s.Inv) (hempty : s.services = [])
    (h : RunUnder svc k s r) : ∃ p, runFor k (s.setServices p) = r := by
  have hself {u : State} (hu : u.services = []) : u.setServices [] = u := by rw [← hu]; rfl
  induction k generalizing s with
  | zero =>
    obtain rfl : r = .running s := h
    exact ⟨[], by rw [hself hempty]; rfl⟩
  | succ k ih =>
    rcases h.succ_cases with ⟨a, t, hstep, ha, ht, hr⟩ | ⟨a, t, hstep, ha, ht, rfl⟩ | ⟨hstuck, rfl⟩
    · obtain ⟨hinv, hkept⟩ := servicedStepKeepsTheInvariant svc hsvc s t a hs hstep ha
      obtain ⟨p, hp⟩ := ih hinv (hkept.trans hempty) hr
      obtain ⟨q, hq⟩ := hstep.exists_pending hsvc hs ha p
      exact ⟨q, (runFor_succ_normal hq ht k).trans hp⟩
    · obtain ⟨-, hkept⟩ := servicedStepKeepsTheInvariant svc hsvc s t a hs hstep ha
      obtain ⟨q, hq⟩ := hstep.exists_pending hsvc hs ha []
      rw [hself (hkept.trans hempty)] at hq
      exact ⟨q, runFor_succ_returned hq ht k⟩
    · obtain ⟨q, hq⟩ := exists_pending_never hstuck
      exact ⟨q, runFor_succ_stuck hq k⟩

end Run

/-- Settles O55, by the two inductions on the number of steps. -/
theorem servicedRunsAreRunsOfTheModel : Obligations.ServicedRunsAreRunsOfTheModel :=
  ⟨exists_runUnder, fun _ hsvc _ _ _ hs hempty h => h.exists_pending hsvc hs hempty⟩

/-! ### The converse -/

/-- The most permissive service keeps the contract. -/
theorem anyService_lawful : anyService.Lawful := fun _ _ => ⟨fun _ h => h, fun _ _ h => h⟩

/-- A run of the model that is not stuck is a run under the most permissive service. -/
theorem runUnder_anyService {k : Nat} {s : State} (h : runFor k s ≠ .stuck) :
    RunUnder anyService k (s.setServices []) ((runFor k s).setServices []) := by
  induction k, s using runFor.induct with
  | case1 s => rfl
  | case2 k s hs => exact absurd (runFor_succ_stuck hs k) h
  | case3 k s t hs ht ih =>
    obtain ⟨a, hstep, ha⟩ := exists_stepUnder_anyService hs
    rw [runFor_succ_normal hs ht] at h ⊢
    exact .succ_normal hstep ha ht (ih h)
  | case4 k s t hs ht =>
    obtain ⟨a, hstep, ha⟩ := exists_stepUnder_anyService hs
    rw [runFor_succ_returned hs ht]
    exact .succ_returned hstep ha ht

/-- A stuck run was running until a service never answered. -/
theorem exists_never_of_stuck {k : Nat} {s : State} (h : runFor k s = .stuck) :
    ∃ j t u, j < k ∧ runFor j s = .running t ∧ step t = .fault (.trapNeverAnswers u) := by
  induction k, s using runFor.induct with
  | case1 s => cases h
  | case2 k s hs =>
    obtain ⟨u, hu, -⟩ := step_of_driverStep_none hs
    exact ⟨0, s, u, Nat.succ_pos k, rfl, hu⟩
  | case3 k s t hs ht ih =>
    obtain ⟨j, w, u, hj, hrun, hu⟩ := ih (by rwa [runFor_succ_normal hs ht] at h)
    exact ⟨j + 1, w, u, Nat.succ_lt_succ hj, (runFor_succ_normal hs ht j).trans hrun, hu⟩
  | case4 k s t hs ht => rw [runFor_succ_returned hs ht] at h; cases h

/-- Settles O56, by the two inductions on the number of steps. -/
theorem runsOfTheModelAreServicedRuns : Obligations.RunsOfTheModelAreServicedRuns :=
  ⟨anyService_lawful, fun _ _ => ⟨runUnder_anyService, exists_never_of_stuck⟩⟩

end Sys2Proof.Machine
end

section
/-! Proofs: the ALU and its operands, and the operate instructions ADD, AND and NOT (R58 to R63). -/

namespace Sys2Proof.Machine

/-! ### The ALU's three operations -/

@[simp] theorem toNat_bv16 (n : Int) : ((bv16 n).toNat : Int) = n % 65536 := by
  rw [bv16, BitVec.toNat_ofInt]
  omega

/-- Addition modulo 65536 (R59). -/
theorem toNat_aluAdd (a b : Word) : (aluAdd a b).toNat = (a.toNat + b.toNat) % 65536 := by
  have h : ((aluAdd a b).toNat : Int) = (a.toNat + b.toNat) % 65536 := toNat_bv16 _
  omega

/-- An immediate is added as the integer it stands for (R60): taking its pattern first loses only multiples of 65536. -/
theorem toNat_aluAdd_immediate (a : Word) (imm : Int) :
    ((aluAdd a (immediateOperand imm)).toNat : Int) = ((a.toNat : Int) + imm) % 65536 := by
  rw [aluAdd, toNat_bv16, immediateOperand, toNat_bv16, Int.add_emod_emod]

@[simp] theorem getLsbD_aluAnd (a b : Word) (i : Nat) : (aluAnd a b).getLsbD i = (a.getLsbD i && b.getLsbD i) :=
  BitVec.getLsbD_and

theorem getLsbD_aluNot (a : Word) {i : Nat} (hi : i < 16) : (aluNot a).getLsbD i = !a.getLsbD i := by
  simp [aluNot, hi]

theorem toNat_aluNot (a : Word) : (aluNot a).toNat = 65535 - a.toNat := BitVec.toNat_not

/-! ### The operands read from a word -/

theorem imm5_eq_toInt (w : Word) : imm5 w = (w.extractLsb' 0 5).toInt := sext_eq_toInt _

/-- The mask of AND's immediate form repeats bit 4 of the field in every higher bit (R62). -/
theorem getLsbD_immediateOperand (f : BitVec 5) {i : Nat} (hi : i < 16) :
    (immediateOperand f.toInt).getLsbD i = if i < 5 then f.getLsbD i else f.getLsbD 4 := by
  rw [immediateOperand, ← sext_eq_toInt, getLsbD_bv16_sext f hi]

/-- R58's `operand2`, read off the word: `R[w[2:0]]` if the mode bit `w[5]` is 0, the sign-extended `w[4:0]` if it is 1. -/
def operand2 (w : Word) (s : State) : Word :=
  if w.getLsbD 5 = false then s.reg (Reg.ofBits (w.extractLsb' 0 3)) else (w.extractLsb' 0 5).signExtend 16

/-- The mode bit as a field. -/
theorem getLsbD_mode (w : Word) : w.getLsbD 5 = (field w 6 1).getLsbD 0 := (getLsbD_field w 6 1 0 Nat.one_pos).symm

section Operand2
variable {w : Word} (s : State)

theorem operand2_register (hmode : field w 6 1 = 0#1) : operand2 w s = registerOperand (regField w 1) s := by
  have hbit : w.getLsbD 5 = false := by rw [getLsbD_mode, hmode]; rfl
  exact if_pos hbit

theorem operand2_immediate (hmode : field w 6 1 = 1#1) : operand2 w s = immediateOperand (imm5 w) := by
  have hbit : ¬ w.getLsbD 5 = false := by rw [getLsbD_mode, hmode]; decide
  rw [operand2, if_neg hbit, imm5_eq_toInt]
  rfl

end Operand2

/-! ### The shape they share -/

/-- An instruction that ends by writing a result completes with `Normal` and has that result's whole effect; what is known
of the result is known of the value written. -/
theorem exists_writesResult {i : Instr} {s : State} {d : Reg} {v : Word} (h : exec i s = writeResult d v s)
    {P : Word → Prop} (hv : P v) : ∃ t v, exec i s = .next t ∧ P v ∧ WritesResult d v s t := by
  obtain ⟨t, ht, hw⟩ := writeResult_spec d v s
  exact ⟨t, v, h.trans ht, hv, hw⟩

section Decoded
variable {m : OpcodeMap} {w : Word} (s : State)

/-- ADD, in whichever form the mode bit selects. -/
theorem exec_decodeWith_add (h : m.ofBits (field w 13 4) = .add) :
    exec (decodeWith m w) s = writeResult (regField w 10) (aluAdd (s.reg (regField w 7)) (operand2 w s)) s := by
  rcases BitVec.eq_zero_or_eq_one (field w 6 1) with hmode | hmode
  · rw [(DecodesTo.addReg h hmode).decodeWith_eq, operand2_register s hmode]
    rfl
  · rw [(DecodesTo.addImm h hmode).decodeWith_eq, operand2_immediate s hmode]
    rfl

/-- AND, in whichever form the mode bit selects. -/
theorem exec_decodeWith_and (h : m.ofBits (field w 13 4) = .and) :
    exec (decodeWith m w) s = writeResult (regField w 10) (aluAnd (s.reg (regField w 7)) (operand2 w s)) s := by
  rcases BitVec.eq_zero_or_eq_one (field w 6 1) with hmode | hmode
  · rw [(DecodesTo.andReg h hmode).decodeWith_eq, operand2_register s hmode]
    rfl
  · rw [(DecodesTo.andImm h hmode).decodeWith_eq, operand2_immediate s hmode]
    rfl

theorem exec_decodeWith_not (h : m.ofBits (field w 13 4) = .not) :
    exec (decodeWith m w) s = writeResult (regField w 10) (aluNot (s.reg (regField w 7))) s := by
  rw [(DecodesTo.notReg h).decodeWith_eq]
  rfl

end Decoded

/-- Settles O7: each opcode writes its ALU operation's result on the operands the word selects. -/
theorem operateInstructionsShareOneShape : Obligations.OperateInstructionsShareOneShape := by
  unfold Obligations.OperateInstructionsShareOneShape
  intro m w s a b dst
  refine ⟨fun h => ?add, fun h => ?and, fun h => ?not⟩
  case add => exact exists_writesResult (exec_decodeWith_add s h) (toNat_aluAdd a b)
  case and => exact exists_writesResult (exec_decodeWith_and s h) fun i _ => getLsbD_aluAnd a b i
  case not => exact exists_writesResult (exec_decodeWith_not s h) fun _ hi => getLsbD_aluNot a hi

/-! ### Each instruction: its words, then its effect -/

/-- The opcode and the mode bit of a word that matches a row of ADD or AND. -/
theorem opcode_mode_of_and_eq {w c : Word} (h : w &&& 0xF020#16 = c) :
    field w 13 4 = field c 13 4 ∧ field w 6 1 = field c 6 1 := by
  subst h
  exact ⟨(field_and_mask (by decide)).symm, (field_and_mask (by decide)).symm⟩

/-- Settles O8, by the ALU's addition of two registers. -/
theorem addRegisterForm : Obligations.AddRegisterForm := by
  unfold Obligations.AddRegisterForm
  refine ⟨fun w hw => ?_, fun dst src1 src2 s => exists_writesResult rfl (toNat_aluAdd _ _)⟩
  obtain ⟨hop, hmode⟩ := opcode_mode_of_and_eq hw
  exact (DecodesTo.addReg (by rw [hop]; rfl) hmode).decodeWith_eq

/-- Settles O9, by the ALU's addition of an immediate. -/
theorem addImmediateForm : Obligations.AddImmediateForm := by
  unfold Obligations.AddImmediateForm
  refine ⟨fun w hw => ?_, fun dst src1 imm s => exists_writesResult rfl (toNat_aluAdd_immediate _ imm)⟩
  obtain ⟨hop, hmode⟩ := opcode_mode_of_and_eq hw
  rw [← imm5_eq_toInt]
  exact (DecodesTo.addImm (by rw [hop]; rfl) hmode).decodeWith_eq

/-- Settles O10, by the ALU's conjunction of two registers. -/
theorem andRegisterForm : Obligations.AndRegisterForm := by
  unfold Obligations.AndRegisterForm
  refine ⟨fun w hw => ?_, fun dst src1 src2 s => exists_writesResult rfl fun i _ => getLsbD_aluAnd _ _ i⟩
  obtain ⟨hop, hmode⟩ := opcode_mode_of_and_eq hw
  exact (DecodesTo.andReg (by rw [hop]; rfl) hmode).decodeWith_eq

/-- Settles O11, by the bits of the sign-extended mask. -/
theorem andImmediateForm : Obligations.AndImmediateForm := by
  unfold Obligations.AndImmediateForm
  refine ⟨fun w hw => ?_, fun dst src1 f s => exists_writesResult rfl fun i hi => ?_⟩
  · obtain ⟨hop, hmode⟩ := opcode_mode_of_and_eq hw
    rw [← imm5_eq_toInt]
    exact (DecodesTo.andImm (by rw [hop]; rfl) hmode).decodeWith_eq
  · rw [getLsbD_aluAnd, getLsbD_immediateOperand f hi]

/-- Settles O12: NOT's words are known by the opcode alone, and the complement is 65535 minus its source. -/
theorem notComplementsItsSource : Obligations.NotComplementsItsSource := by
  unfold Obligations.NotComplementsItsSource
  refine ⟨fun w hw => ?_, fun dst src1 s => exists_writesResult rfl (toNat_aluNot _)⟩
  exact (DecodesTo.notReg (by rw [field_opcode_of_and_eq hw]; rfl)).decodeWith_eq

end Sys2Proof.Machine
end

section
/-! Proofs: the addresses of the memory access instructions and how an access ends (R26, R28, R64). -/

namespace Sys2Proof.Machine

/-! ### The addressing modes, by the exact sum -/

section Modes
variable {off9 off6 : Int} {base : Reg} {s : State} {a : Word}

theorem pcRelative_eq_some (h : (a.toNat : Int) = s.pc.toNat + off9) : pcRelative off9 s = some a := ea_eq_some.2 h

theorem pcRelative_eq_none (h : (s.pc.toNat : Int) + off9 < 0 ∨ (s.pc.toNat : Int) + off9 > 65535) :
    pcRelative off9 s = none := ea_eq_none.2 h

/-- The pointer is the word in the pointer cell, whatever it is: no second sum is checked (R27). -/
theorem indirect_eq_some (h : (a.toNat : Int) = s.pc.toNat + off9) : indirect off9 s = some (s.memRead a) := by
  rw [indirect, pcRelative_eq_some h, Option.map_some]

theorem indirect_eq_none (h : (s.pc.toNat : Int) + off9 < 0 ∨ (s.pc.toNat : Int) + off9 > 65535) :
    indirect off9 s = none := by
  rw [indirect, pcRelative_eq_none h, Option.map_none]

theorem baseOffset_eq_some (h : (a.toNat : Int) = (s.reg base).toNat + off6) : baseOffset base off6 s = some a :=
  ea_eq_some.2 h

theorem baseOffset_eq_none (h : ((s.reg base).toNat : Int) + off6 < 0 ∨ ((s.reg base).toNat : Int) + off6 > 65535) :
    baseOffset base off6 s = none := ea_eq_none.2 h

/-- Every integer from 0 to 65535 is an address. -/
theorem exists_address {x : Int} (hlow : 0 ≤ x) (hhigh : x ≤ 65535) : ∃ a : Word, (a.toNat : Int) = x :=
  ⟨bv16 x, by rw [toNat_bv16]; omega⟩

end Modes

/-! ### The meanings, by their addressing mode -/

section Meanings
variable (reg base : Reg) (off9 off6 : Int) (s : State)

theorem exec_ld : exec (.ld reg off9) s = loadFrom (pcRelative off9 s) reg s := rfl
theorem exec_ldi : exec (.ldi reg off9) s = loadFrom (indirect off9 s) reg s := rfl
theorem exec_ldr : exec (.ldr reg base off6) s = loadFrom (baseOffset base off6 s) reg s := rfl
theorem exec_st : exec (.st reg off9) s = storeTo (pcRelative off9 s) reg s := rfl
theorem exec_sti : exec (.sti reg off9) s = storeTo (indirect off9 s) reg s := rfl
theorem exec_str : exec (.str reg base off6) s = storeTo (baseOffset base off6 s) reg s := rfl
theorem exec_lea :
    exec (.lea reg off9) s = withAddress (pcRelative off9 s) s fun a => writeResult reg a s := rfl

end Meanings

/-! ### How an access ends -/

section Access
variable {r : Reg} {s : State} {a : Word} {a? : Option Word}

/-- With an address a load puts the word there in its register. -/
theorem loadFrom_completes (ha : a? = some a) :
    ∃ t, loadFrom a? r s = .next t ∧ WritesResult r (s.memRead a) s t := by
  rw [ha, loadFrom_some]
  exact writeResult_spec r (s.memRead a) s

/-- With an address a store puts its register there. -/
theorem storeTo_completes (ha : a? = some a) : ∃ t, storeTo a? r s = .next t ∧ OnlyStores a (s.reg r) s t := by
  rw [ha]
  exact storeTo_spec a r s

/-- Without an address the step only reports the violation, whatever was to follow. -/
theorem withAddress_violates (ha : a? = none) (k : Word → Result) :
    ∃ t, withAddress a? s k = .fault (.addressSpaceViolation t) ∧ OnlyReports .addressSpaceViolation s t := by
  rw [ha]
  exact ⟨_, rfl, setOutcome_onlyReports .addressSpaceViolation s⟩

theorem loadFrom_violates (ha : a? = none) :
    ∃ t, loadFrom a? r s = .fault (.addressSpaceViolation t) ∧ OnlyReports .addressSpaceViolation s t :=
  withAddress_violates ha _

theorem storeTo_violates (ha : a? = none) :
    ∃ t, storeTo a? r s = .fault (.addressSpaceViolation t) ∧ OnlyReports .addressSpaceViolation s t :=
  withAddress_violates ha _

end Access

/-- Storing one word at one address gives equal memories from equal memories. -/
theorem StoresWord.sameMemory {a v : Word} {s s' t t' : State} (h : StoresWord a v s t) (h' : StoresWord a v s' t')
    (hs : SameMemory s s') : SameMemory t t' := by
  obtain ⟨hword, hother⟩ := h
  obtain ⟨hword', hother'⟩ := h'
  intro b
  by_cases hb : b = a
  · rw [hb, hword, hword']
  · rw [hother b hb, hother' b hb, hs b]

/-! ### The words of the memory access instructions -/

theorem pcoffset9_eq_toInt (w : Word) : pcoffset9 w = (w.extractLsb' 0 9).toInt := sext_eq_toInt _
theorem offset6_eq_toInt (w : Word) : offset6 w = (w.extractLsb' 0 6).toInt := sext_eq_toInt _

/-- A word whose top four bits are known dispatches to their opcode (R42). -/
theorem dispatch_of_and_eq {w c : Word} (h : w &&& 0xF000#16 = c) :
    standardOpcodeMap.ofBits (field w 13 4) = standardOpcodeMap.ofBits (field c 13 4) := by
  rw [field_opcode_of_and_eq h]

end Sys2Proof.Machine
end

section
/-! Proofs: the memory access instructions LD, ST, LDI, STI, LDR, STR and LEA (R64 to R71). -/

namespace Sys2Proof.Machine

/-- Settles O13: a load at the PC-relative address. -/
theorem ldLoadsThePcRelativeWord : Obligations.LdLoadsThePcRelativeWord := by
  unfold Obligations.LdLoadsThePcRelativeWord
  refine ⟨fun w hw => ?words, fun reg off9 s a ha => ?completes, fun reg off9 s hout => ?violates⟩
  case words =>
    rw [← pcoffset9_eq_toInt]
    exact (DecodesTo.ld (dispatch_of_and_eq hw)).decodeWith_eq
  case completes => exact exec_ld reg off9 s ▸ loadFrom_completes (pcRelative_eq_some ha)
  case violates => exact exec_ld reg off9 s ▸ loadFrom_violates (pcRelative_eq_none hout)

/-- Settles O14: a store at the PC-relative address. -/
theorem stStoresAtThePcRelativeAddress : Obligations.StStoresAtThePcRelativeAddress := by
  unfold Obligations.StStoresAtThePcRelativeAddress
  refine ⟨fun w hw => ?words, fun reg off9 s a ha => ⟨pcRelative_eq_some ha, ?completes⟩,
    fun reg off9 s hout => ?violates⟩
  case words =>
    rw [← pcoffset9_eq_toInt]
    exact (DecodesTo.st (dispatch_of_and_eq hw)).decodeWith_eq
  case completes => exact exec_st reg off9 s ▸ storeTo_completes (pcRelative_eq_some ha)
  case violates => exact exec_st reg off9 s ▸ storeTo_violates (pcRelative_eq_none hout)

/-- Settles O15: a load at the address in the pointer cell. -/
theorem ldiLoadsThroughThePointer : Obligations.LdiLoadsThroughThePointer := by
  unfold Obligations.LdiLoadsThroughThePointer
  refine ⟨fun w hw => ?words, fun reg off9 s a ha => ?completes, fun reg off9 s hout => ?violates⟩
  case words =>
    rw [← pcoffset9_eq_toInt]
    exact (DecodesTo.ldi (dispatch_of_and_eq hw)).decodeWith_eq
  case completes => exact exec_ldi reg off9 s ▸ loadFrom_completes (indirect_eq_some ha)
  case violates => exact exec_ldi reg off9 s ▸ loadFrom_violates (indirect_eq_none hout)

/-- Settles O16: a store at the address in the pointer cell. -/
theorem stiStoresThroughThePointer : Obligations.StiStoresThroughThePointer := by
  unfold Obligations.StiStoresThroughThePointer
  refine ⟨fun w hw => ?words, fun reg off9 s a ha => ⟨indirect_eq_some ha, ?completes⟩,
    fun reg off9 s hout => ?violates⟩
  case words =>
    rw [← pcoffset9_eq_toInt]
    exact (DecodesTo.sti (dispatch_of_and_eq hw)).decodeWith_eq
  case completes => exact exec_sti reg off9 s ▸ storeTo_completes (indirect_eq_some ha)
  case violates => exact exec_sti reg off9 s ▸ storeTo_violates (indirect_eq_none hout)

/-- Settles O17: a load at the base register plus the offset. -/
theorem ldrLoadsFromBasePlusOffset : Obligations.LdrLoadsFromBasePlusOffset := by
  unfold Obligations.LdrLoadsFromBasePlusOffset
  refine ⟨fun w hw => ?words, fun reg base off6 s a ha => ?completes, fun reg base off6 s hout => ?violates⟩
  case words =>
    rw [← offset6_eq_toInt]
    exact (DecodesTo.ldr (dispatch_of_and_eq hw)).decodeWith_eq
  case completes => exact exec_ldr reg base off6 s ▸ loadFrom_completes (baseOffset_eq_some ha)
  case violates => exact exec_ldr reg base off6 s ▸ loadFrom_violates (baseOffset_eq_none hout)

/-- Settles O18: a store at the base register plus the offset. -/
theorem strStoresAtBasePlusOffset : Obligations.StrStoresAtBasePlusOffset := by
  unfold Obligations.StrStoresAtBasePlusOffset
  refine ⟨fun w hw => ?words, fun reg base off6 s a ha => ⟨baseOffset_eq_some ha, ?completes⟩,
    fun reg base off6 s hout => ?violates⟩
  case words =>
    rw [← offset6_eq_toInt]
    exact (DecodesTo.str (dispatch_of_and_eq hw)).decodeWith_eq
  case completes => exact exec_str reg base off6 s ▸ storeTo_completes (baseOffset_eq_some ha)
  case violates => exact exec_str reg base off6 s ▸ storeTo_violates (baseOffset_eq_none hout)

/-- Settles O19: the PC-relative address is itself the result. -/
theorem leaLoadsTheAddress : Obligations.LeaLoadsTheAddress := by
  unfold Obligations.LeaLoadsTheAddress
  refine ⟨fun w hw => ?words, fun reg off9 s a ha => ?completes, fun reg off9 s hout => ?violates⟩
  case words =>
    rw [← pcoffset9_eq_toInt]
    exact (DecodesTo.lea (dispatch_of_and_eq hw)).decodeWith_eq
  case completes =>
    rw [exec_lea, pcRelative_eq_some ha]
    exact writeResult_spec reg a s
  case violates => exact exec_lea reg off9 s ▸ withAddress_violates (pcRelative_eq_none hout) _

/-- Settles O20: LEA leaves the address in its register and memory unchanged, so the base with offset 0 is the address
that LD and ST compute. -/
theorem leaThenBaseOffsetReachesTheSameCell : Obligations.LeaThenBaseOffsetReachesTheSameCell := by
  unfold Obligations.LeaThenBaseOffsetReachesTheSameCell
  intro r x off9 s hlow hhigh
  obtain ⟨a, ha⟩ := exists_address hlow hhigh
  obtain ⟨-, hlea, -⟩ := leaLoadsTheAddress
  obtain ⟨t, ht, -, hbase, hregs, -, hmem, -, -⟩ := hlea r off9 s a ha
  have hcell : (a.toNat : Int) = ((t.setPc (t.pc + 1)).reg r).toNat + 0 := by
    rw [State.reg_setPc, hbase, Int.add_zero]
  refine ⟨t, ht, ?load, fun hx => ?store⟩
  case load =>
    obtain ⟨-, hldr, -⟩ := ldrLoadsFromBasePlusOffset
    obtain ⟨-, hld, -⟩ := ldLoadsThePcRelativeWord
    obtain ⟨u, hu, -, hux, -⟩ := hldr x r 0 (t.setPc (t.pc + 1)) a hcell
    obtain ⟨v, hv, -, hvx, -⟩ := hld x off9 s a ha
    exact ⟨u, v, hu, hv, by rw [hux, hvx, State.memRead_setPc, hmem a]⟩
  case store =>
    obtain ⟨-, hstr, -⟩ := strStoresAtBasePlusOffset
    obtain ⟨-, hst, -⟩ := stStoresAtThePcRelativeAddress
    obtain ⟨-, u, hu, -, hus, -⟩ := hstr x r 0 (t.setPc (t.pc + 1)) a hcell
    obtain ⟨-, v, hv, -, hvs, -⟩ := hst x off9 s a ha
    rw [State.reg_setPc, hregs x hx] at hus
    exact ⟨u, v, hu, hv, hvs.sameMemory hus hmem⟩

end Sys2Proof.Machine
end

section
/-! Proofs: the control-flow instructions BR and JMP (R72 to R74). -/

namespace Sys2Proof.Machine

/-! ### The condition bits of a word -/

theorem flagField_eq_getLsbD (w : Word) (p : Nat) : flagField w p = w.getLsbD (p - 1) := by
  have hbit : ∀ b : BitVec 1, (b == 1#1) = b.getLsbD 0 := by decide
  rw [flagField, hbit, getLsbD_field w p 1 0 Nat.one_pos, Nat.add_zero]

/-! ### The meanings of BR and JMP -/

/-- A BR that is taken goes to its target, or raises the violation where it has none. -/
theorem exec_br_taken {n z p : Bool} {off9 : Int} {s : State} (h : branchTaken n z p s.flags = true) :
    exec (.br n z p off9) s = withAddress (pcRelative off9 s) s fun a => returnNormal (s.setPc a) := if_pos h

theorem exec_jmp (base : Reg) (s : State) : exec (.jmp base) s = returnNormal (s.setPc (s.reg base)) := rfl

/-- A transfer completes with `Normal` and only sets `pc`. -/
theorem returnNormal_setPc (a : Word) (s : State) : ∃ t, returnNormal (s.setPc a) = .next t ∧ OnlySetsPc a s t :=
  ⟨_, rfl, by simp [OnlySetsPc, SameRegs, SameMemory]⟩

/-- Settles O21: not taken, `pc` is set to what it holds; taken, to the address of the exact sum, where there is one. -/
theorem brBranchesOnTheFlags : Obligations.BrBranchesOnTheFlags := by
  unfold Obligations.BrBranchesOnTheFlags
  refine ⟨fun w hw => ?words, fun n z p off9 s => ?_⟩
  case words =>
    rw [← pcoffset9_eq_toInt, ← flagField_eq_getLsbD w 12, ← flagField_eq_getLsbD w 11, ← flagField_eq_getLsbD w 10]
    exact (DecodesTo.br (dispatch_of_and_eq hw)).decodeWith_eq
  rw [← branchTaken_iff]
  refine ⟨fun hnot => ?stays, fun htaken a ha => ?goes, fun htaken hout => ?violates⟩
  case stays => exact exec_br_not_taken (Bool.eq_false_of_not_eq_true hnot) ▸ returnNormal_setPc s.pc s
  case goes =>
    rw [exec_br_taken htaken, pcRelative_eq_some ha]
    exact returnNormal_setPc a s
  case violates => exact exec_br_taken htaken ▸ withAddress_violates (pcRelative_eq_none hout) _

/-- Settles O22: a transfer to what the base register holds, with no sum to check. -/
theorem jmpGoesToItsRegister : Obligations.JmpGoesToItsRegister :=
  ⟨fun _ hw => (DecodesTo.jmp (dispatch_of_and_eq hw)).decodeWith_eq,
    fun base s => exec_jmp base s ▸ returnNormal_setPc (s.reg base) s⟩

end Sys2Proof.Machine
end

section
/-! Proofs: TRAP, answer by answer, and its answers as those of a trap service (R75, R76, R86). -/

namespace Sys2Proof.Machine

/-! ### The answer a vector gets -/

/-- The first answer listed for a vector is its next; every other one stays, in order. -/
theorem takeAnswer_append {v : BitVec 8} {earlier : List (BitVec 8 × TrapAnswer)} (h : ∀ x ∈ earlier, x.1 ≠ v)
    (answer : TrapAnswer) (later : List (BitVec 8 × TrapAnswer)) :
    takeAnswer v (earlier ++ (v, answer) :: later) = (answer, earlier ++ later) := by
  induction earlier with
  | nil => exact takeAnswer_self v answer later
  | cons x xs ih =>
    obtain ⟨hx, hxs⟩ := List.forall_mem_cons.1 h
    rw [List.cons_append, takeAnswer_other hx, ih hxs, List.cons_append]

theorem takeAnswer_of_not_listed {v : BitVec 8} {p : List (BitVec 8 × TrapAnswer)} (h : ∀ x ∈ p, x.1 ≠ v) :
    takeAnswer v p = (.unregistered, p) := by
  induction p with
  | nil => exact takeAnswer_nil v
  | cons x xs ih =>
    obtain ⟨hx, hxs⟩ := List.forall_mem_cons.1 h
    rw [takeAnswer_other hx, ih hxs]

/-! ### The state at the call, and the state a service leaves -/

section Call
variable (s : State) (p : List (BitVec 8 × TrapAnswer))

/-- At the call `R[7]` holds the return address, `p` is pending, and the rest is as it was (R85). -/
theorem trapEntry_frame :
    let t := (trapEntry s).setServices p
    t.pc = s.pc ∧ t.reg .r7 = s.pc ∧ SameRegsBut .r7 s t ∧ t.flags = s.flags ∧ SameMemory s t ∧ t.services = p := by
  simp +contextual [trapEntry, SameRegsBut, SameMemory]

theorem State.flags_afterService (e : ServiceEffect) :
    (s.afterService e).flags = (e.flags.map FlagState.flags).getD s.flags := by
  obtain ⟨-, -, hregs, -⟩ := State.setRegs_frame s e.regs
  obtain ⟨-, -, hmem, -⟩ := State.memWrites_frame (s.setRegs e.regs) e.mem
  rw [State.afterService]
  cases e.flags with
  | none => exact hmem.trans hregs
  | some f => rfl

/-- A service called by TRAP writes over the state at the call. -/
theorem afterService_afterTrap (e : ServiceEffect) : AfterTrap e p s (((trapEntry s).setServices p).afterService e) := by
  obtain ⟨-, hservices, -⟩ := State.afterService_frame ((trapEntry s).setServices p) e
  refine ⟨fun r => ?_, fun a => State.memRead_afterService _ e a, State.flags_afterService _ e, hservices⟩
  rw [State.reg_afterService, State.reg_setServices, trapEntry, State.reg_setReg]

theorem pc_afterService_trapEntry (e : ServiceEffect) : (((trapEntry s).setServices p).afterService e).pc = s.pc :=
  (State.afterService_frame _ e).1

end Call

/-- Settles O23: the list's first answer for the vector, then the state each answer leaves. -/
theorem trapCallsTheServiceOfItsVector : Obligations.TrapCallsTheServiceOfItsVector := by
  unfold Obligations.TrapCallsTheServiceOfItsVector
  refine ⟨fun w hw => (DecodesTo.trap (dispatch_of_and_eq hw)).decodeWith_eq,
    fun _ _ answer later h => takeAnswer_append h answer later, fun _ _ => takeAnswer_of_not_listed,
    fun vector s p => ⟨fun e h => ?halt, fun e a h => ?resume, fun h => ?unregistered, fun h => ?never⟩⟩
  case halt => exact ⟨_, exec_trap h, rfl, pc_afterService_trapEntry s p e, afterService_afterTrap s p e⟩
  case resume => exact ⟨_, exec_trap h, rfl, rfl, afterService_afterTrap s p e⟩
  case unregistered => exact ⟨_, exec_trap h, rfl, trapEntry_frame s p⟩
  case never => exact ⟨_, exec_trap h, trapEntry_frame s p⟩

/-! ### Pending answers and trap services -/

/-- With one answer pending and no other, TRAP does what the core does with that answer. -/
theorem exec_trap_single {s : State} (hempty : s.services = []) (v : BitVec 8) (x : TrapAnswer) :
    exec (.trap v) (s.setServices [(v, x)]) = applyAnswer x (trapEntry s) := by
  rw [exec_trap (s := s.setServices [(v, x)]) (takeAnswer_self v x []), ← hempty]
  rfl

/-- Settles O24: the answer that gives a lawful service's result, made pending; and the most permissive service, for
every answer that comes. -/
theorem pendingAnswersAreEveryTrapService : Obligations.PendingAnswersAreEveryTrapService := by
  unfold Obligations.PendingAnswersAreEveryTrapService
  refine ⟨fun svc hsvc v s r hs hempty h => ?pending, fun v s r _ hr => ?service⟩
  case pending =>
    obtain ⟨x, rfl⟩ := h.exists_answer hsvc hs
    exact ⟨x, exec_trap_single hempty v x⟩
  case service =>
    subst hr
    rw [exec_trap (x := (takeAnswer v s.services).1) (p := (takeAnswer v s.services).2) rfl]
    by_cases hx : (takeAnswer v s.services).1 = .never
    · rw [hx]
      exact .inl ⟨_, rfl⟩
    · exact .inr ⟨anyService, anyService_lawful, trapUnder_anyService hx v (s.setServices (takeAnswer v s.services).2)⟩

end Sys2Proof.Machine
end

section
/-! Proofs: which steps end with `DecodeError` and which with `AddressSpaceViolation` (R78, R79, R84). -/

namespace Sys2Proof

/-- In a consistent map an opcode value dispatches to a target exactly when it is that target's value (R43). -/
theorem OpcodeMap.Consistent.ofBits_eq_iff {m : OpcodeMap} (hm : m.Consistent) {b : BitVec 4} {o : Opcode} :
    m.ofBits b = o ↔ b = m.bits o :=
  ⟨fun h => by rw [← h, hm.2 b], fun h => by rw [h, hm.1 o]⟩

/-- The opcode field of a word is the value of the target it decodes to (R42). -/
theorem opcode_decode_eq_iff {w : Word} {o : Opcode} : (decode w).opcode = o ↔ w.extractLsb' 12 4 = opcodeBits o := by
  have hdispatch : standardOpcodeMap.ofBits (w.extractLsb' 12 4) = (decode w).opcode :=
    (decodesTo_decodeWith standardOpcodeMap w).opcode
  rw [← hdispatch]
  exact standardOpcodeMap_consistent.ofBits_eq_iff

end Sys2Proof

namespace Sys2Proof.Machine

/-! ### `DecodeError` -/

theorem isUndefined_iff {i : Instr} :
    isUndefined i = true ↔ i = .undefined0100 ∨ i = .undefined1000 ∨ i = .undefined1101 := by
  cases i <;> simp [isUndefined, Instr.opcode]

/-- A word decodes to a failure exactly when its opcode field holds one of R44's three values. -/
theorem isUndefined_decode_iff {w : Word} :
    isUndefined (decode w) = true ↔
      w.extractLsb' 12 4 = 0b0100#4 ∨ w.extractLsb' 12 4 = 0b1000#4 ∨ w.extractLsb' 12 4 = 0b1101#4 := by
  rw [isUndefined, decide_eq_true_iff, opcode_decode_eq_iff, opcode_decode_eq_iff, opcode_decode_eq_iff]
  rfl

/-- An instruction ends with `DecodeError` exactly when it is one of the three failures (R78). -/
theorem exec_decodeError_iff {i : Instr} {s : State} :
    (∃ t, exec i s = .fault (.decodeError t)) ↔ isUndefined i = true := by
  constructor
  · rintro ⟨t, h⟩
    cases exec_fault h with
    | undefined hi => exact hi
  · intro hi
    rcases isUndefined_iff.1 hi with rfl | rfl | rfl <;> exact ⟨_, rfl⟩

/-- At 65535 the step ends before decode, with the other error (D21). -/
theorem step_decodeError_iff {s : State} :
    (∃ t, step s = .fault (.decodeError t)) ↔ s.pc ≠ 0xFFFF#16 ∧ isUndefined (decode (s.memRead s.pc)) = true := by
  by_cases hpc : s.pc = 0xFFFF#16
  · simp [step_top hpc, raise, hpc]
  · rw [step_below hpc, exec_decodeError_iff, and_iff_right hpc]

/-- The failing word stands below the incremented pc, as it was fetched (D19). -/
theorem OnlyReports.failing_word {o : StepOutcome} {s t : State} (h : OnlyReports o (s.setPc (s.pc + 1)) t) :
    t.pc - 1 = s.pc ∧ t.memRead (t.pc - 1) = s.memRead s.pc := by
  obtain ⟨-, hmem, -, hpc, -, -⟩ := h
  have haddress : t.pc - 1 = s.pc := by rw [hpc, State.pc_setPc, BitVec.add_sub_cancel]
  refine ⟨haddress, ?_⟩
  rw [haddress, State.memRead, hmem]
  rfl

/-- Settles O39: the failing instructions by their opcode values, and the state their report leaves. -/
theorem decodeErrorExactlyOnUndefinedOpcodes : Obligations.DecodeErrorExactlyOnUndefinedOpcodes := by
  unfold Obligations.DecodeErrorExactlyOnUndefinedOpcodes
  intro s
  refine ⟨?_, fun t h => ⟨step_decodeError h, (step_decodeError h).failing_word⟩⟩
  rw [step_decodeError_iff, isUndefined_decode_iff]

/-! ### `AddressSpaceViolation` -/

/-- An instruction whose address sum is no address only reports the violation, whatever it would have done there. -/
theorem exec_violates {i : Instr} {s : State} {x : Int} (h : addressSum i s = some x) (hx : x < 0 ∨ x > 65535) :
    ∃ t, exec i s = .fault (.addressSpaceViolation t) ∧ OnlyReports .addressSpaceViolation s t := by
  cases i with
  | ld | st | lea =>
    cases h
    exact withAddress_violates (pcRelative_eq_none hx) _
  | ldi | sti =>
    cases h
    exact withAddress_violates (indirect_eq_none hx) _
  | ldr | str =>
    cases h
    exact withAddress_violates (baseOffset_eq_none hx) _
  | br n z p off9 =>
    rw [addressSum_br] at h
    split at h
    case isTrue htaken =>
      cases h
      exact exec_br_taken htaken ▸ withAddress_violates (pcRelative_eq_none hx) _
    case isFalse => cases h
  | addReg | addImm | andReg | andImm | notReg | jmp | trap | undefined0100 | undefined1000 | undefined1101 => cases h

/-- An instruction ends with `AddressSpaceViolation` exactly when its address sum is no address (R79). -/
theorem exec_addressSpaceViolation_iff {i : Instr} {s : State} :
    (∃ t, exec i s = .fault (.addressSpaceViolation t)) ↔ ∃ x, addressSum i s = some x ∧ (x < 0 ∨ x > 65535) := by
  constructor
  · rintro ⟨t, h⟩
    cases exec_fault h with
    | violation x hsum hx => exact ⟨x, hsum, hx⟩
  · rintro ⟨x, hsum, hx⟩
    obtain ⟨t, ht, -⟩ := exec_violates hsum hx
    exact ⟨t, ht⟩

/-- Settles O40: at the top the increment is the sum that fails; below it the instruction's own is the only one. -/
theorem addressViolationExactlyOutOfRange : Obligations.AddressViolationExactlyOutOfRange := by
  unfold Obligations.AddressViolationExactlyOutOfRange
  intro s
  by_cases hpc : s.pc = 0xFFFF#16
  · exact iff_of_true ⟨_, step_top hpc⟩ (.inl hpc)
  · rw [step_below hpc, exec_addressSpaceViolation_iff, or_iff_right hpc]

end Sys2Proof.Machine
end

section
/-! Proofs: trap entry and return, and the two minimal trap services (R85, R86, R87). -/

namespace Sys2Proof.Machine

/-! ### Trap entry and return -/

/-- The registers at the call: the return address in `R[7]` (R85). -/
@[simp] theorem reg_trapEntry (s : State) (r : Reg) :
    (trapEntry s).reg r = if r = .r7 then s.pc else s.reg r := State.reg_setReg s .r7 r s.pc

/-- Settles O34: entry is one write of `R[7]`, return one write of `pc`. -/
theorem trapEntryAndReturn : Obligations.TrapEntryAndReturn := by
  unfold Obligations.TrapEntryAndReturn
  intro s a
  refine ⟨?entry, fun r hr => ?others, rfl, rfl, rfl, rfl, rfl, rfl, rfl⟩
  case entry => rw [reg_trapEntry, if_pos rfl]
  case others => rw [reg_trapEntry, if_neg hr]

/-- Returning to the address in `R[7]` right after entry gives the state at entry: its `pc` is that address. -/
theorem trapReturn_trapEntry (s : State) : trapReturn (trapEntry s) ((trapEntry s).reg .r7) = trapEntry s := by
  rw [reg_trapEntry, if_pos rfl]
  rfl

/-! ### A service's answer as the result of its TRAP -/

/-- What the core makes of an answer given in the state at the call (R75, R76). -/
def ServiceAnswer.result (s : State) : ServiceAnswer → Result
  | .unregistered => raise .trapUnregistered s
  | .halt s' => returnHalted s'
  | .resume s' a => returnNormal (trapReturn s' a)

section Results
variable {svc : TrapService} {v : BitVec 8} {s : State} {r : Result}

/-- The results of a TRAP are those of the answers its service may give. -/
theorem trapUnder_iff :
    TrapUnder svc v s r ↔ ∃ x, svc v (trapEntry s) x ∧ r = x.result (trapEntry s) := by
  constructor
  · rintro (⟨h, hr⟩ | ⟨s', h, hr⟩ | ⟨s', a, h, hr⟩)
    exacts [⟨_, h, hr⟩, ⟨_, h, hr⟩, ⟨_, h, hr⟩]
  · rintro ⟨x, h, hr⟩
    cases x with
    | unregistered => exact .inl ⟨h, hr⟩
    | halt s' => exact .inr (.inl ⟨s', h, hr⟩)
    | resume s' a => exact .inr (.inr ⟨s', a, h, hr⟩)

/-- A service with one answer gives its TRAP one result. -/
theorem trapUnder_of_only_answer {y : ServiceAnswer} (h : ∀ x, svc v (trapEntry s) x ↔ x = y) :
    TrapUnder svc v s r ↔ r = y.result (trapEntry s) := by
  simp only [trapUnder_iff, h, exists_eq_left]

end Results

/-! ### `SVC_MIN` and `SVC_RET` -/

/-- A service may change nothing. -/
theorem Permitted.refl (s : State) : Permitted s s := ⟨rfl, id, id, rfl, rfl⟩

theorem svcMin_lawful : svcMin.Lawful := by
  refine fun v s => ⟨fun s' h => ?halt, fun s' a h => ?resume⟩
  case halt =>
    rcases h with ⟨-, ⟨⟩⟩ | ⟨-, ⟨⟩⟩
    exact Permitted.refl s
  case resume => rcases h with ⟨-, ⟨⟩⟩ | ⟨-, ⟨⟩⟩

theorem svcRet_lawful : svcRet.Lawful := by
  refine fun v s => ⟨fun s' h => ?halt, fun s' a h => ?resume⟩
  case halt =>
    rcases h with ⟨-, ⟨⟩⟩ | ⟨-, ⟨⟩⟩ | ⟨-, -, ⟨⟩⟩
    exact Permitted.refl s
  case resume =>
    rcases h with ⟨-, ⟨⟩⟩ | ⟨-, ⟨⟩⟩ | ⟨-, -, ⟨⟩⟩
    exact Permitted.refl s

section Answers
variable {v : BitVec 8} (s : State) (x : ServiceAnswer)

theorem svcMin_halt : svcMin 0x25#8 s x ↔ x = .halt s := by simp [svcMin]
theorem svcMin_other (hv : v ≠ 0x25#8) : svcMin v s x ↔ x = .unregistered := by simp [svcMin, hv]
theorem svcRet_halt : svcRet 0x25#8 s x ↔ x = .halt s := by simp [svcRet]
theorem svcRet_resume : svcRet 0x21#8 s x ↔ x = .resume s (s.reg .r7) := by simp [svcRet]
theorem svcRet_other (hhalt : v ≠ 0x25#8) (hresume : v ≠ 0x21#8) : svcRet v s x ↔ x = .unregistered := by
  simp [svcRet, hhalt, hresume]

end Answers

/-- Settles O25: each of the two has one answer to each vector, and so a TRAP one result. -/
theorem minimalServicesHaltAndReturn : Obligations.MinimalServicesHaltAndReturn := by
  unfold Obligations.MinimalServicesHaltAndReturn
  refine ⟨svcMin_lawful, svcRet_lawful, fun s r => ⟨trapUnder_of_only_answer (svcMin_halt _),
    fun v hv => trapUnder_of_only_answer fun x => svcMin_other _ x hv, trapUnder_of_only_answer (svcRet_halt _), ?returns,
    fun v hhalt hresume => trapUnder_of_only_answer fun x => svcRet_other _ x hhalt hresume⟩⟩
  case returns => rw [trapUnder_of_only_answer (svcRet_resume _), ServiceAnswer.result, trapReturn_trapEntry]

end Sys2Proof.Machine
end

section
/-! Proofs: the driver's block load (R95, R96), its two writes and its accessors (R97, R98). -/

namespace Sys2Proof.Machine

/-! ### Writing a block -/

section Block
variable (s : State) (address : Nat) (words : List Word)

@[simp] theorem writeBlock_nil : writeBlock s address [] = s := rfl

@[simp] theorem writeBlock_cons (w : Word) :
    writeBlock s address (w :: words) =
      writeBlock { s with mem := s.mem.writeAt address w } (address + 1) words := rfl

/-- A block write is a change of memory and of nothing else. -/
theorem writeBlock_frame : ∃ m, writeBlock s address words = { s with mem := m } := by
  induction words generalizing s address with
  | nil => exact ⟨s.mem, rfl⟩
  | cons w words ih => exact ih { s with mem := s.mem.writeAt address w } (address + 1)

variable {s address words}

theorem readAt_writeBlock_outside {a : Nat} (ha : a < address ∨ address + words.length ≤ a) :
    (writeBlock s address words).mem.readAt a = s.mem.readAt a := by
  induction words generalizing s address with
  | nil => rfl
  | cons w words ih =>
    rw [List.length_cons] at ha
    have hne : a ≠ address := by omega
    rw [writeBlock_cons, ih (by omega), Memory.readAt_writeAt, if_neg hne]

/-- Word `j` stands at `address + j`: the first is outside the block of the rest, which no later write reaches. -/
theorem readAt_writeBlock_inside {j : Nat} (hj : j < words.length) :
    (writeBlock s address words).mem.readAt (address + j) = words[j] := by
  induction words generalizing s address j with
  | nil => cases hj
  | cons w words ih =>
    rw [writeBlock_cons]
    cases j with
    | zero =>
      have hbefore : address + 0 < address + 1 := Nat.lt_succ_self address
      rw [readAt_writeBlock_outside (.inl hbefore), Memory.readAt_writeAt, if_pos (Nat.add_zero _),
        List.getElem_cons_zero]
    | succ j =>
      have hplace : address + (j + 1) = address + 1 + j := by omega
      rw [hplace, ih (Nat.lt_of_succ_lt_succ hj), List.getElem_cons_succ]

/-- A block that ends within memory keeps its one form. -/
theorem wf_writeBlock (hfit : address + words.length ≤ Config.memWords) (hs : s.mem.wf) :
    (writeBlock s address words).mem.wf := by
  induction words generalizing s address with
  | nil => exact hs
  | cons w words ih =>
    rw [List.length_cons] at hfit
    rw [writeBlock_cons]
    exact ih (by omega) (Memory.wf_writeAt hs (by omega) w)

theorem load_of_too_long (h : address + words.length > Config.memWords) :
    load address words s = (.failed, s) := if_pos h

theorem load_of_fits (h : address + words.length ≤ Config.memWords) :
    load address words s = (.ok, writeBlock s address words) := if_neg (Nat.not_lt.2 h)

end Block

/-- Settles O50: the length check decides which; a block that fits is written word by word. -/
theorem loadWritesTheBlockOrFails : Obligations.LoadWritesTheBlockOrFails := by
  unfold Obligations.LoadWritesTheBlockOrFails
  refine fun address words s => ⟨load_of_too_long, fun hfit => ⟨_, load_of_fits hfit,
    fun j hj => readAt_writeBlock_inside hj, fun a ha => readAt_writeBlock_outside ha, ?frame⟩⟩
  case frame =>
    have hwf : s.mem.wf → (writeBlock s address words).mem.wf := wf_writeBlock hfit
    obtain ⟨m, hm⟩ := writeBlock_frame s address words
    rw [hm] at hwf ⊢
    exact ⟨rfl, rfl, rfl, hwf⟩

/-! ### The two writes and the accessors -/

/-- Settles O51: the writes are `pc <- a` and `R[r] <- v`, each accessor reads one field, and the laws of the state say
what it reads after a write. -/
theorem driverSetsPcAndRegistersOnly : Obligations.DriverSetsPcAndRegistersOnly := by
  unfold Obligations.DriverSetsPcAndRegistersOnly
  intro s a v r
  have hsame : readReg (driverSetReg r v s) r = v := (s.reg_setReg r r v).trans (if_pos rfl)
  have hother (q : Reg) (hq : q ≠ r) : readReg (driverSetReg r v s) q = readReg s q :=
    (s.reg_setReg r q v).trans (if_neg hq)
  exact ⟨s.pc_setPc a, s.reg_setPc a, s.flags_setPc a, s.memRead_setPc a, hsame, hother,
    s.flags_setReg r v, s.pc_setReg r v, s.memRead_setReg r v, rfl, rfl, rfl, rfl⟩

end Sys2Proof.Machine
end
